-- ==== Sys2Proof/Config.lean ====
section
/-! DEFINITION. The fixed parameters of 00_scope.md R8. The spec leaves no parameter and no value open
("None is left open to the model"), so nothing here is a free value. -/

namespace Sys2Proof.Config

/-- HEX_MAX_CHARS: the longest accepted hex input. -/
abbrev hexMaxChars : Nat := 32

/-- BYTES_MAX: the longest accepted byte input. -/
abbrev bytesMax : Nat := 16

/-- BYTES_OUT: the length of the serialized output. -/
abbrev bytesOut : Nat := 16

/-- CANON_LEN: the length of the canonical hex output. -/
abbrev canonLen : Nat := 34

/-- IN_LANES: the byte lanes of the input buffer. -/
abbrev inLanes : Nat := 32

/-- OUT_LANES: the byte lanes of the output buffer. -/
abbrev outLanes : Nat := 34

/-- The largest count `cmd_len` can hold (30_encoding.md R64). -/
abbrev lenMax : Nat := 255

end Sys2Proof.Config
end

