-- ==== Sys2Proof/Word.lean ====
section
/-! DEFINITION. The word types of the U128 core: one name for each bit width the spec uses. -/

namespace Sys2Proof

/-- A byte or a character: one lane of a buffer (00_scope.md R11, R12). -/
abbrev Byte := BitVec 8

/-- One 64-bit half of a value (00_scope.md R7). -/
abbrev Half := BitVec 64

/-- A value, packed with its high half above its low half (00_scope.md R7, R10). -/
abbrev U128 := BitVec 128

/-- The input buffer `cmd_buf`, 32 byte lanes (10_state.md R23). -/
abbrev InBuf := BitVec 256

/-- The output buffer `RSP_BUF`, 34 byte lanes (10_state.md R26). -/
abbrev OutBuf := BitVec 272

/-- The opcode field (00_scope.md R8). -/
abbrev OpBits := BitVec 4

/-- The packed command word CW (30_encoding.md R60). -/
abbrev CmdWord := BitVec 524

end Sys2Proof
end

