-- ==== Sys2Proof/Machine/Operands.lean ====
section
/-! DEFINITION. Operand forms: the halves of a value, the byte lanes of a buffer, hex digits and the hex
and byte forms of a value. -/

namespace Sys2Proof.Machine

/-- The high half, bits `[127:64]` (00_scope.md R10). -/
def high (v : U128) : Half := v.extractLsb' 64 64

/-- The low half, bits `[63:0]` (00_scope.md R10). -/
def low (v : U128) : Half := v.extractLsb' 0 64

/-- The value `{hi, lo}` (00_scope.md R9, R10). -/
def pair (hi lo : Half) : U128 := hi ++ lo

/-- `zext_128` of a 64-bit operand (00_scope.md R9; 40_construct.md R80). -/
def zeroExtend (u : Half) : U128 := pair 0#64 u

/-- `lane(B, i) = B[8*i+7 : 8*i]` (00_scope.md R11). -/
def lane {w : Nat} (buf : BitVec w) (i : Nat) : Byte := buf.extractLsb' (8 * i) 8

/-- Lanes `0 .. n-1` of a buffer, in sequence order (20_memory.md R45). -/
def lanes {w : Nat} (buf : BitVec w) (n : Nat) : List Byte := (List.range n).map (lane buf)

/-- The buffer whose lane `i` is element `i` of the sequence and whose other lanes are 0
(00_scope.md R11; 10_state.md R28). -/
def laneBuf (w : Nat) : List Byte → BitVec w
  | []      => 0#w
  | c :: cs => (laneBuf w cs <<< 8) ||| c.setWidth w

/-- How many lanes a constructor with limit `limit` reads: `len` of them, or none when the length is
over the limit (10_state.md R25). -/
def lanesRead (limit : Nat) (len : Byte) : Nat := if len.toNat ≤ limit then len.toNat else 0

/-- The byte codes of the hex digits, either case (40_construct.md R81). -/
def ishex (c : Byte) : Bool :=
  (0x30#8 ≤ c && c ≤ 0x39#8) || (0x41#8 ≤ c && c ≤ 0x46#8) || (0x61#8 ≤ c && c ≤ 0x66#8)

/-- The value of a hex digit (40_construct.md R81). Used only where `ishex c`. -/
def hexval (c : Byte) : BitVec 4 :=
  if c ≤ 0x39#8 then (c - 0x30#8).setWidth 4
  else if c ≤ 0x46#8 then (c - 0x37#8).setWidth 4
  else (c - 0x57#8).setWidth 4

/-- The loop `v <- v * 16 + hexval(c)` over a string (40_construct.md R83). -/
def hexValue (cs : List Byte) : U128 :=
  cs.foldl (fun v c => v * 16#128 + (hexval c).setWidth 128) 0#128

/-- The loop `v <- v * 256 + d` over a byte sequence (40_construct.md R89). -/
def bytesValue (ds : List Byte) : U128 :=
  ds.foldl (fun v d => v * 256#128 + d.setWidth 128) 0#128

/-- The lowercase ASCII character of a digit (44_serialize.md R130). -/
def hexchar (d : BitVec 4) : Byte :=
  if d ≤ 9#4 then 0x30#8 + d.setWidth 8 else 0x57#8 + d.setWidth 8

/-- The number of bits up to the highest set bit, 0 for 0 (00_scope.md R13). -/
def bitlength {w : Nat} (v : BitVec w) : Nat := if v.toNat = 0 then 0 else v.toNat.log2 + 1

/-- `hexfix(v, n)`: exactly `n` lowercase hex digits, the most significant first
(44_serialize.md R132). -/
def hexfix {w : Nat} (v : BitVec w) (n : Nat) : List Byte :=
  (List.range n).map fun j => hexchar (v.extractLsb' (4 * (n - 1 - j)) 4)

/-- The digit count of `hexmin`: `max(1, ceil(bitlength(v) / 4))` (44_serialize.md R131). -/
def hexminDigits {w : Nat} (v : BitVec w) : Nat := max 1 ((bitlength v + 3) / 4)

/-- `hexmin(v)`: the hex digits of `v` without leading zeros, `"0"` for 0 (44_serialize.md R131). -/
def hexmin {w : Nat} (v : BitVec w) : List Byte := hexfix v (hexminDigits v)

/-- The big-endian bytes of a value: byte `i` is `v[127-8i : 120-8i]` (20_memory.md R41;
44_serialize.md R133). -/
def bigEndianBytes (v : U128) : List Byte :=
  (List.range Config.bytesOut).map fun i => v.extractLsb' (120 - 8 * i) 8

/-- The compact hex string (44_serialize.md R134). -/
def compactString (a : U128) : List Byte :=
  if high a = 0#64 then hexmin (low a) else hexmin (high a) ++ hexfix (low a) 16

/-- The canonical string: `"0x"` and the compact string padded with `'0'` to 32 characters
(44_serialize.md R136). -/
def canonString (a : U128) : List Byte :=
  0x30#8 :: 0x78#8 :: (List.replicate (32 - (compactString a).length) 0x30#8 ++ compactString a)

end Sys2Proof.Machine
end

