-- ==== Sys2Proof/Syntax.lean ====
section
/-! DEFINITION. The command as it stands on the port, and the instructions it decodes to. -/

namespace Sys2Proof

/-- A command: the five fields of the command port (10_state.md R24). -/
structure Command where
  op  : OpBits
  a   : U128
  b   : U128
  len : Byte
  buf : InBuf
deriving DecidableEq, Repr

/-- One constructor per row of the opcode table (30_encoding.md R61). Each carries exactly what its
operation reads (10_state.md R25): `fromHex` and `fromBytes` carry the length field and the lanes read,
in sequence order, which are none when the length is over the limit. -/
inductive Instr where
  | reserved0
  | fromU64 (u : Half)
  | fromHex (len : Byte) (chars : List Byte)
  | fromBytes (len : Byte) (bytes : List Byte)
  | cmp (a b : U128)
  | and (a b : U128)
  | or (a b : U128)
  | xor (a b : U128)
  | add (a b : U128)
  | sub (a b : U128)
  | toBytes (a : U128)
  | toHexCompact (a : U128)
  | toHexCanon (a : U128)
  | reservedD
  | reservedE
  | reservedF
deriving DecidableEq, Repr

end Sys2Proof
end

