-- ==== Sys2Proof/WellFormed.lean ====
section
/-! DEFINITION. Which instructions a command can stand for: the sequence carried has as many elements as
the length field says are read (10_state.md R25). -/

namespace Sys2Proof

/-- The check, for every constructor. Only the two constructors that carry a sequence can be ill formed:
the sequence must have as many elements as the core reads for that length (10_state.md R25). -/
def Instr.wf : Instr → Bool
  | .fromHex len chars => chars.length == Machine.lanesRead Config.hexMaxChars len
  | .fromBytes len bytes => bytes.length == Machine.lanesRead Config.bytesMax len
  | .reserved0 | .reservedD | .reservedE | .reservedF => true
  | .fromU64 _ => true
  | .cmp _ _ | .and _ _ | .or _ _ | .xor _ _ | .add _ _ | .sub _ _ => true
  | .toBytes _ | .toHexCompact _ | .toHexCanon _ => true

/-- `Instr.wf` as a proposition. -/
abbrev Instr.WellFormed (i : Instr) : Prop := i.wf = true

end Sys2Proof
end

