-- ==== Sys2Proof/Decode.lean ====
section
/-! DEFINITION. The packed command word (30_encoding.md R60), the opcode map (R61, R62), the decoder and the
encoder. -/

namespace Sys2Proof

/-! ## The packed command word -/

/-- The fields of the packed command word whose number is `w`, bit 0 the least significant
(30_encoding.md R60). -/
def commandOfNat (w : Nat) : Command :=
  { op  := BitVec.ofNat 4 w
    a   := BitVec.ofNat 128 (w >>> 4)
    b   := BitVec.ofNat 128 (w >>> 132)
    len := BitVec.ofNat 8 (w >>> 260)
    buf := BitVec.ofNat 256 (w >>> 268) }

/-- The fields of a packed command word (30_encoding.md R60). -/
def unpack (cw : CmdWord) : Command := commandOfNat cw.toNat

/-- The packed command word of a command (30_encoding.md R60). -/
def pack (c : Command) : CmdWord := c.buf ++ c.len ++ c.b ++ c.a ++ c.op

/-! ## The opcode map -/

/-- A row of the opcode table: it matches when `CW[3:0] &&& mask = code` (30_encoding.md R62). -/
structure OpcodeRow where
  mnemonic : String
  code     : OpBits
  mask     : OpBits
deriving DecidableEq, Repr

/-- The sixteen rows (30_encoding.md R61; opcode_table.json). -/
def opcodeTable : List OpcodeRow :=
  [⟨"RESERVED_0x0", 0x0, 0xF⟩, ⟨"FROM_U64", 0x1, 0xF⟩, ⟨"FROM_HEX", 0x2, 0xF⟩, ⟨"FROM_BYTES", 0x3, 0xF⟩,
   ⟨"CMP", 0x4, 0xF⟩, ⟨"AND", 0x5, 0xF⟩, ⟨"OR", 0x6, 0xF⟩, ⟨"XOR", 0x7, 0xF⟩] ++
  [⟨"ADD", 0x8, 0xF⟩, ⟨"SUB", 0x9, 0xF⟩, ⟨"TO_BYTES", 0xA, 0xF⟩, ⟨"TO_HEX_COMPACT", 0xB, 0xF⟩,
   ⟨"TO_HEX_CANON", 0xC, 0xF⟩, ⟨"RESERVED_0xD", 0xD, 0xF⟩, ⟨"RESERVED_0xE", 0xE, 0xF⟩, ⟨"RESERVED_0xF", 0xF, 0xF⟩]

/-- The row's match and mask test (30_encoding.md R62). -/
def OpcodeRow.matchesOp (r : OpcodeRow) (op : OpBits) : Bool := op &&& r.mask == r.code

/-- The opcode of an instruction (30_encoding.md R61). -/
def Instr.opcode : Instr → OpBits
  | .reserved0        => 0x0
  | .fromU64 _        => 0x1
  | .fromHex _ _      => 0x2
  | .fromBytes _ _    => 0x3
  | .cmp _ _          => 0x4
  | .and _ _          => 0x5
  | .or _ _           => 0x6
  | .xor _ _          => 0x7
  | .add _ _          => 0x8
  | .sub _ _          => 0x9
  | .toBytes _        => 0xA
  | .toHexCompact _   => 0xB
  | .toHexCanon _     => 0xC
  | .reservedD        => 0xD
  | .reservedE        => 0xE
  | .reservedF        => 0xF

/-! ## The decoder -/

/-- The instruction of a command: `op` alone selects it (30_encoding.md R61), total over the sixteen
codes (R62; the last arm is `0xF`, the one code left), and each takes only the fields it reads
(10_state.md R25). -/
def decode (c : Command) : Instr :=
  match c.op with
  | 0x0#4 => .reserved0
  | 0x1#4 => .fromU64 (Machine.low c.a)
  | 0x2#4 => .fromHex c.len (Machine.lanes c.buf (Machine.lanesRead Config.hexMaxChars c.len))
  | 0x3#4 => .fromBytes c.len (Machine.lanes c.buf (Machine.lanesRead Config.bytesMax c.len))
  | 0x4#4 => .cmp c.a c.b
  | 0x5#4 => .and c.a c.b
  | 0x6#4 => .or c.a c.b
  | 0x7#4 => .xor c.a c.b
  | 0x8#4 => .add c.a c.b
  | 0x9#4 => .sub c.a c.b
  | 0xA#4 => .toBytes c.a
  | 0xB#4 => .toHexCompact c.a
  | 0xC#4 => .toHexCanon c.a
  | 0xD#4 => .reservedD
  | 0xE#4 => .reservedE
  | _     => .reservedF

/-- The instruction of a packed command word. -/
def decodeWord (cw : CmdWord) : Instr := decode (unpack cw)

/-- Why a number or a byte list is no command word. -/
inductive DecodeError where
  /-- A bit above `CW[523]` is set: a command word has 524 bits (30_encoding.md R60). -/
  | beyondCommandWord
deriving DecidableEq, Repr

/-- The number whose bytes these are, the least significant first (DESIGN CHOICE, log entry 4). -/
def natOfBytes : List Byte → Nat
  | []      => 0
  | d :: ds => d.toNat + 256 * natOfBytes ds

/-- The `n` low bytes of a number, the least significant first (DESIGN CHOICE, log entry 4). -/
def bytesOfNat : Nat → Nat → List Byte
  | 0, _     => []
  | n + 1, w => BitVec.ofNat 8 w :: bytesOfNat n (w / 256)

/-- The decoder on any list of bytes: bits the list does not reach are 0, bits beyond the command word
are rejected (DESIGN CHOICE, log entry 4). -/
def decodeBytes (bs : List Byte) : Except DecodeError Instr :=
  if natOfBytes bs >>> 524 = 0 then .ok (decode (commandOfNat (natOfBytes bs))) else .error .beyondCommandWord

/-- The instruction of a word of `nbits` bits, laid out as `decodeBytes` reads it. -/
def decodeTableWord (nbits w : Nat) : Option Instr :=
  match decodeBytes (bytesOfNat ((nbits + 7) / 8) (w % 2 ^ nbits)) with
  | .ok i    => some i
  | .error _ => none

/-! ## The encoder -/

/-- The command that presents an instruction, every field it does not read at 0 (30_encoding.md R68). -/
def encodeCommand (i : Instr) : Command :=
  match i with
  | .reserved0           => ⟨0x0, 0, 0, 0, 0⟩
  | .fromU64 u           => ⟨0x1, Machine.zeroExtend u, 0, 0, 0⟩
  | .fromHex len chars   => ⟨0x2, 0, 0, len, Machine.laneBuf 256 chars⟩
  | .fromBytes len bytes => ⟨0x3, 0, 0, len, Machine.laneBuf 256 bytes⟩
  | .cmp a b             => ⟨0x4, a, b, 0, 0⟩
  | .and a b             => ⟨0x5, a, b, 0, 0⟩
  | .or a b              => ⟨0x6, a, b, 0, 0⟩
  | .xor a b             => ⟨0x7, a, b, 0, 0⟩
  | .add a b             => ⟨0x8, a, b, 0, 0⟩
  | .sub a b             => ⟨0x9, a, b, 0, 0⟩
  | .toBytes a           => ⟨0xA, a, 0, 0, 0⟩
  | .toHexCompact a      => ⟨0xB, a, 0, 0, 0⟩
  | .toHexCanon a        => ⟨0xC, a, 0, 0, 0⟩
  | .reservedD           => ⟨0xD, 0, 0, 0, 0⟩
  | .reservedE           => ⟨0xE, 0, 0, 0, 0⟩
  | .reservedF           => ⟨0xF, 0, 0, 0, 0⟩

/-- The packed command word of an instruction. -/
def encode (i : Instr) : CmdWord := pack (encodeCommand i)

end Sys2Proof
end

