-- ==== Sys2Proof/Machine/Flags.lean ====
section
/-! DEFINITION. The condition outputs RSP_STATUS and RSP_ORD (10_state.md R32), and the carry and the borrow
between the halves, which no register keeps. -/

namespace Sys2Proof.Machine

/-- The status codes that a command can produce (60_exceptions.md R150). -/
inductive Status where
  | ok
  | hexTooLong
  | hexBadChar
  | bytesTooLong
  | illegalOp
deriving DecidableEq, Repr

/-- The RSP_STATUS code (60_exceptions.md R150). -/
def Status.code : Status → BitVec 3
  | .ok           => 0
  | .hexTooLong   => 1
  | .hexBadChar   => 2
  | .bytesTooLong => 3
  | .illegalOp    => 4

/-- FormatError is status 1, 2 or 3 (60_exceptions.md R150). -/
def isFormatError (status : BitVec 3) : Bool := status == 1#3 || status == 2#3 || status == 3#3

/-- The opcodes without an operation (30_encoding.md R66). -/
def isReservedOp (op : OpBits) : Bool := op == 0x0#4 || op == 0xD#4 || op == 0xE#4 || op == 0xF#4

/-- The RSP_ORD code of an ordering (41_compare.md R100). -/
def ordCode : Ordering → BitVec 2
  | .lt => 0b11
  | .eq => 0b00
  | .gt => 0b01

/-- The ordering a code stands for; `2'b10` stands for none (41_compare.md R100). -/
def orderingOfCode (code : BitVec 2) : Option Ordering :=
  if code = 0b11#2 then some .lt
  else if code = 0b00#2 then some .eq
  else if code = 0b01#2 then some .gt
  else none

/-- The order of two values, high halves first, every comparison unsigned (41_compare.md R101). -/
def compareHalves (a b : U128) : Ordering :=
  if high a < high b then .lt
  else if high b < high a then .gt
  else if low a < low b then .lt
  else if low b < low a then .gt
  else .eq

/-- The carry from the low halves: the low sum wrapped (43_arith.md R116). -/
def carry (a b : U128) : Half := if low a + low b < low a then 1#64 else 0#64

/-- The borrow from the low halves: the low difference wrapped (43_arith.md R120). -/
def borrow (a b : U128) : Half := if low a < low b then 1#64 else 0#64

end Sys2Proof.Machine
end

