-- ==== Sys2Proof/Machine/State.lean ====
section
/-! DEFINITION. The state of the core, the reasons a step can stop, and the state after reset. -/

namespace Sys2Proof.Machine

/-- The input ports at one moment (10_state.md R23). `rise` says whether `clk` has a rising edge there. -/
structure PortInput where
  rise     : Bool
  rst      : Bool
  cmdValid : Bool
  cmd      : Command
deriving DecidableEq, Repr

/-- The response registers, which are the whole architectural state (10_state.md R20, R26), and beside
them the input samples still to come, oldest first, which are the model's own (log entry 1). -/
structure State where
  rspValid  : Bool
  rspOp     : BitVec 4
  rspStatus : BitVec 3
  rspVal    : BitVec 128
  rspOrd    : BitVec 2
  rspLen    : BitVec 6
  rspBuf    : BitVec 272
  inputs    : List PortInput
deriving DecidableEq, Repr

/-- The reasons the machine stops with a fault: none. The core has no traps, and every error is a status
code of an ordinary response (60_exceptions.md R152, R155), so no definition can raise one. -/
inductive Fault
deriving DecidableEq, Repr

/-- The reasons the model gives an instruction no meaning. -/
inductive Refusal where
  /-- Raised by an arm of `exec` that has no meaning yet; no arm of this model raises it. Safe. -/
  | notModelled (mnemonic : String)
deriving DecidableEq, Repr

/-- Every response register at its reset value (10_state.md R26; 70_reset_and_hazards.md R170), and no
input sample given yet (log entry 1). -/
def State.reset : State :=
  { rspValid := false, rspOp := 0, rspStatus := 0, rspVal := 0, rspOrd := 0, rspLen := 0, rspBuf := 0
    inputs := [] }

end Sys2Proof.Machine
end

