-- ==== Sys2Proof/Machine/Ops.lean ====
section
/-! DEFINITION. The named operations over the response registers and the ports. -/

namespace Sys2Proof.Machine

/-! ## Responses -/

/-- The response of `Exec` (10_state.md R29). -/
structure Response where
  status : BitVec 3
  val    : U128
  ord    : BitVec 2
  len    : BitVec 6
  buf    : OutBuf
deriving DecidableEq, Repr

/-- The zero response `Z` every operation starts from (10_state.md R29). -/
def Response.zero : Response := { status := 0, val := 0, ord := 0, len := 0, buf := 0 }

/-- A response that produces a value (10_state.md R28, R29). -/
def Response.value (v : U128) : Response := { Response.zero with val := v }

/-- A response that produces an ordering (41_compare.md R101). -/
def Response.order (o : Ordering) : Response := { Response.zero with ord := ordCode o }

/-- A response that produces a sequence: its elements from lane 0 and their count, every lane past it 0
(10_state.md R28; 20_memory.md R41, R42). -/
def Response.output (l : List Byte) : Response :=
  { Response.zero with len := BitVec.ofNat 6 l.length, buf := laneBuf 272 l }

/-- Raising an error. The core has no trap: the status is the whole record, and every other field stays 0
(60_exceptions.md R150, R155; 10_state.md R28). -/
def Response.fail (st : Status) : Response := { Response.zero with status := st.code }

/-! ## What an edge does to the registers -/

/-- The accepting edge: every response register is written (10_state.md R28, R30). -/
def State.accept (op : OpBits) (r : Response) (s : State) : State :=
  { s with
    rspValid := true, rspOp := op, rspStatus := r.status, rspVal := r.val, rspOrd := r.ord, rspLen := r.len
    rspBuf := r.buf }

/-- The outcome of a command: the accepting edge, always a next state (10_state.md R29, R30). -/
def answer (op : OpBits) (r : Response) (s : State) : Host.Outcome State Fault Refusal :=
  .next (s.accept op r)

/-- The edge with `rst = 1` (10_state.md R30; 70_reset_and_hazards.md R170). -/
def State.resetRegs (s : State) : State := { State.reset with inputs := s.inputs }

/-- The edge at which no command is accepted clears RSP_VALID alone (10_state.md R27, R30). -/
def State.clearValid (s : State) : State := { s with rspValid := false }

/-! ## Reading the input ports -/

/-- What the core does at one sample of its input ports (10_state.md R30). -/
inductive EdgeAction where
  | hold
  | reset
  | accept (c : Command)
  | idle
deriving DecidableEq, Repr

/-- The choice of 10_state.md R30: no rising edge changes nothing, then `rst`, then `cmd_valid`. -/
def sampleAction (p : PortInput) : EdgeAction :=
  if p.rise = false then .hold
  else if p.rst = true then .reset
  else if p.cmdValid = true then .accept p.cmd
  else .idle

/-- Takes the next input sample. With none left `clk` has stopped, which keeps every register
(60_exceptions.md R163; DESIGN CHOICE, log entry 2). -/
def fetch (s : State) : EdgeAction × State :=
  match s.inputs with
  | []        => (.hold, s)
  | p :: rest => (sampleAction p, { s with inputs := rest })

/-! ## The host's side of the ports -/

/-- The sample at which the host presents a command (10_state.md R24). -/
def presented (c : Command) : PortInput := { rise := true, rst := false, cmdValid := true, cmd := c }

/-- The sample of a reset edge (70_reset_and_hazards.md R170). -/
def resetEdge : PortInput := { rise := true, rst := true, cmdValid := false, cmd := ⟨0, 0, 0, 0, 0⟩ }

/-- The sample of an edge at which no command is presented (10_state.md R27). -/
def idleEdge : PortInput := { rise := true, rst := false, cmdValid := false, cmd := ⟨0, 0, 0, 0, 0⟩ }

/-- The next input sample becomes the presentation of `c`; the later ones stay (log entry 3). -/
def State.present (c : Command) (s : State) : State := { s with inputs := presented c :: s.inputs.tail }

/-- The host is about to present these commands at consecutive edges (10_state.md R22; log entry 3). -/
def State.load (cs : List Command) (s : State) : State := { s with inputs := cs.map presented }

/-- The output ports (10_state.md R23). -/
structure Outputs where
  rspValid  : Bool
  rspOp     : BitVec 4
  rspStatus : BitVec 3
  rspVal    : BitVec 128
  rspOrd    : BitVec 2
  rspLen    : BitVec 6
  rspBuf    : BitVec 272
deriving DecidableEq, Repr

/-- Every output is driven by the register of the same name; reading it changes nothing
(10_state.md R23; 20_memory.md R47). -/
def State.outputs (s : State) : Outputs :=
  { rspValid := s.rspValid, rspOp := s.rspOp, rspStatus := s.rspStatus, rspVal := s.rspVal, rspOrd := s.rspOrd
    rspLen := s.rspLen, rspBuf := s.rspBuf }

/-- The output sequence: the valid lanes of RSP_BUF (10_state.md R26). -/
def State.outputSeq (s : State) : List Byte := lanes s.rspBuf s.rspLen.toNat

/-- The ordering the registers report: only after a CMP that succeeded (41_compare.md R100). -/
def State.ordering (s : State) : Option Ordering :=
  if s.rspOp = 0x4#4 ∧ s.rspStatus = 0#3 then orderingOfCode s.rspOrd else none

end Sys2Proof.Machine
end

