-- ==== Sys2Proof/Machine/Arith.lean ====
section
/-! DEFINITION. The arithmetic operations ADD and SUB (43_arith.md). -/

namespace Sys2Proof.Machine

/-- The 128-bit sum by halves, the carry of the low halves added to the high halves, no carry in and none
out (43_arith.md R116, R124). -/
def addHalves (a b : U128) : U128 := pair (high a + high b + carry a b) (low a + low b)

/-- The 128-bit difference by halves, the borrow of the low halves taken from the high halves, no borrow in
and none out (43_arith.md R120, R124). -/
def subHalves (a b : U128) : U128 := pair (high a - high b - borrow a b) (low a - low b)

/-- The response of ADD (43_arith.md R116). -/
def respAdd (a b : U128) : Response := .value (addHalves a b)

/-- The response of SUB (43_arith.md R120). -/
def respSub (a b : U128) : Response := .value (subHalves a b)

/-- ADD (43_arith.md R116). -/
def execAdd (a b : U128) (s : State) : Host.Outcome State Fault Refusal := answer 0x8#4 (respAdd a b) s

/-- SUB (43_arith.md R120). -/
def execSub (a b : U128) (s : State) : Host.Outcome State Fault Refusal := answer 0x9#4 (respSub a b) s

end Sys2Proof.Machine
end

