-- ==== Sys2Proof/Machine/Bitwise.lean ====
section
/-! DEFINITION. The bitwise operations AND, OR and XOR (42_bitwise.md). -/

namespace Sys2Proof.Machine

/-- The shape of the three: the operator on the high halves and on the low halves (42_bitwise.md R105). -/
def halfwise (op : Half → Half → Half) (a b : U128) : U128 := pair (op (high a) (high b)) (op (low a) (low b))

/-- The response of AND (42_bitwise.md R106). -/
def respAnd (a b : U128) : Response := .value (halfwise (· &&& ·) a b)

/-- The response of OR, which combines both low halves (42_bitwise.md R107, R109). -/
def respOr (a b : U128) : Response := .value (halfwise (· ||| ·) a b)

/-- The response of XOR (42_bitwise.md R108). -/
def respXor (a b : U128) : Response := .value (halfwise (· ^^^ ·) a b)

/-- AND (42_bitwise.md R106). -/
def execAnd (a b : U128) (s : State) : Host.Outcome State Fault Refusal := answer 0x5#4 (respAnd a b) s

/-- OR (42_bitwise.md R107). -/
def execOr (a b : U128) (s : State) : Host.Outcome State Fault Refusal := answer 0x6#4 (respOr a b) s

/-- XOR (42_bitwise.md R108). -/
def execXor (a b : U128) (s : State) : Host.Outcome State Fault Refusal := answer 0x7#4 (respXor a b) s

end Sys2Proof.Machine
end

