-- ==== Sys2Proof/Machine/Compare.lean ====
section
/-! DEFINITION. The comparison CMP (41_compare.md). -/

namespace Sys2Proof.Machine

/-- The response of CMP (41_compare.md R101). -/
def respCmp (a b : U128) : Response := .order (compareHalves a b)

/-- CMP (41_compare.md R101). -/
def execCmp (a b : U128) (s : State) : Host.Outcome State Fault Refusal := answer 0x4#4 (respCmp a b) s

end Sys2Proof.Machine
end

