-- ==== Sys2Proof/Machine/Construct.lean ====
section
/-! DEFINITION. The constructors FROM_U64, FROM_HEX and FROM_BYTES (40_construct.md). -/

namespace Sys2Proof.Machine

/-- The response of FROM_U64 (40_construct.md R80). -/
def respFromU64 (u : Half) : Response := .value (zeroExtend u)

/-- The response of FROM_HEX: the length is tested before the characters (40_construct.md R83;
60_exceptions.md R154). -/
def respFromHex (len : Byte) (chars : List Byte) : Response :=
  if Config.hexMaxChars < len.toNat then .fail .hexTooLong
  else if chars.all ishex then .value (hexValue chars)
  else .fail .hexBadChar

/-- The response of FROM_BYTES: no byte is invalid, a short sequence is the low-order bytes
(40_construct.md R87, R89). -/
def respFromBytes (len : Byte) (bytes : List Byte) : Response :=
  if Config.bytesMax < len.toNat then .fail .bytesTooLong else .value (bytesValue bytes)

/-- FROM_U64 (40_construct.md R80). -/
def execFromU64 (u : Half) (s : State) : Host.Outcome State Fault Refusal := answer 0x1#4 (respFromU64 u) s

/-- FROM_HEX (40_construct.md R83). -/
def execFromHex (len : Byte) (chars : List Byte) (s : State) : Host.Outcome State Fault Refusal :=
  answer 0x2#4 (respFromHex len chars) s

/-- FROM_BYTES (40_construct.md R89). -/
def execFromBytes (len : Byte) (bytes : List Byte) (s : State) : Host.Outcome State Fault Refusal :=
  answer 0x3#4 (respFromBytes len bytes) s

end Sys2Proof.Machine
end

