-- ==== Sys2Proof/Machine/Reserved.lean ====
section
/-! DEFINITION. The reserved opcodes: accepted, and answered with ILLEGAL_OP (30_encoding.md R66;
60_exceptions.md R153). -/

namespace Sys2Proof.Machine

/-- The response of every reserved opcode (60_exceptions.md R153). -/
def respReserved : Response := .fail .illegalOp

/-- RESERVED_0x0 (60_exceptions.md R153). -/
def execReserved0 (s : State) : Host.Outcome State Fault Refusal := answer 0x0#4 respReserved s

/-- RESERVED_0xD (60_exceptions.md R153). -/
def execReservedD (s : State) : Host.Outcome State Fault Refusal := answer 0xD#4 respReserved s

/-- RESERVED_0xE (60_exceptions.md R153). -/
def execReservedE (s : State) : Host.Outcome State Fault Refusal := answer 0xE#4 respReserved s

/-- RESERVED_0xF (60_exceptions.md R153). -/
def execReservedF (s : State) : Host.Outcome State Fault Refusal := answer 0xF#4 respReserved s

end Sys2Proof.Machine
end

