-- ==== Sys2Proof/Machine/Serialize.lean ====
section
/-! DEFINITION. The serializers TO_BYTES, TO_HEX_COMPACT and TO_HEX_CANON (44_serialize.md). -/

namespace Sys2Proof.Machine

/-- The response of TO_BYTES (44_serialize.md R133). -/
def respToBytes (a : U128) : Response := .output (bigEndianBytes a)

/-- The response of TO_HEX_COMPACT (44_serialize.md R134). -/
def respToHexCompact (a : U128) : Response := .output (compactString a)

/-- The response of TO_HEX_CANON (44_serialize.md R136). -/
def respToHexCanon (a : U128) : Response := .output (canonString a)

/-- TO_BYTES (44_serialize.md R133). -/
def execToBytes (a : U128) (s : State) : Host.Outcome State Fault Refusal := answer 0xA#4 (respToBytes a) s

/-- TO_HEX_COMPACT (44_serialize.md R134). -/
def execToHexCompact (a : U128) (s : State) : Host.Outcome State Fault Refusal :=
  answer 0xB#4 (respToHexCompact a) s

/-- TO_HEX_CANON (44_serialize.md R136). -/
def execToHexCanon (a : U128) (s : State) : Host.Outcome State Fault Refusal := answer 0xC#4 (respToHexCanon a) s

end Sys2Proof.Machine
end

