-- ==== Sys2Proof/Machine/Dispatch.lean ====
section
/-! DEFINITION. One arm per instruction, each a call of its meaning. -/

namespace Sys2Proof.Machine

/-- The meaning of an accepted command (10_state.md R29, R30). -/
def exec (i : Instr) (s : State) : Host.Outcome State Fault Refusal :=
  match i with
  | .reserved0 => Sys2Proof.Machine.execReserved0 s
  | .fromU64 u => Sys2Proof.Machine.execFromU64 u s
  | .fromHex len chars => Sys2Proof.Machine.execFromHex len chars s
  | .fromBytes len bytes => Sys2Proof.Machine.execFromBytes len bytes s
  | .cmp a b => Sys2Proof.Machine.execCmp a b s
  | .and a b => Sys2Proof.Machine.execAnd a b s
  | .or a b => Sys2Proof.Machine.execOr a b s
  | .xor a b => Sys2Proof.Machine.execXor a b s
  | .add a b => Sys2Proof.Machine.execAdd a b s
  | .sub a b => Sys2Proof.Machine.execSub a b s
  | .toBytes a => Sys2Proof.Machine.execToBytes a s
  | .toHexCompact a => Sys2Proof.Machine.execToHexCompact a s
  | .toHexCanon a => Sys2Proof.Machine.execToHexCanon a s
  | .reservedD => Sys2Proof.Machine.execReservedD s
  | .reservedE => Sys2Proof.Machine.execReservedE s
  | .reservedF => Sys2Proof.Machine.execReservedF s

end Sys2Proof.Machine
end

