-- ==== Sys2Proof/Machine/Step.lean ====
section
/-! DEFINITION. One step of the core: one sample of its input ports (10_state.md R30). -/

namespace Sys2Proof.Machine

/-- The step of 10_state.md R30 at the next input sample. -/
def step (s : State) : Host.Outcome State Fault Refusal :=
  match fetch s with
  | (.hold, t)     => .next t
  | (.reset, t)    => .next t.resetRegs
  | (.idle, t)     => .next t.clearValid
  | (.accept c, t) => exec (decode c) t

/-- The state with a command word of `nbits` bits presented at the next edge, every bit above them 0
(log entry 3). -/
def State.withFetchWord (s : State) (nbits w : Nat) : State :=
  s.present (commandOfNat (w % 2 ^ nbits))

end Sys2Proof.Machine
end

