-- ==== Sys2Proof/Machine/Assembler.lean ====
section
/-! DEFINITION. The assembly notation of commands (30_encoding.md R68), its pseudo-commands (R69), and the
text form of a line. -/

namespace Sys2Proof.Machine

/-! ## Commands and pseudo-commands -/

/-- A line of the notation: the twelve operations, the raw command `.cmd`, the six pseudo-commands
(30_encoding.md R68, R69). -/
inductive Asm where
  | fromU64 (u : Half)
  | fromHex (chars : List Byte)
  | fromBytes (bytes : List Byte)
  | cmp (a b : U128)
  | and (a b : U128)
  | or (a b : U128)
  | xor (a b : U128)
  | add (a b : U128)
  | sub (a b : U128)
  | toBytes (a : U128)
  | toHexCompact (a : U128)
  | toHexCanon (a : U128)
  | raw (c : Command)
  | zero
  | not (a : U128)
  | neg (a : U128)
  | inc (a : U128)
  | dec (a : U128)
  | mov (a : U128)
deriving DecidableEq, Repr

/-- The length field for a sequence of `n` elements: `min(n, 255)` (30_encoding.md R64, R68). -/
def lenField (n : Nat) : Byte := BitVec.ofNat 8 (min n Config.lenMax)

/-- The command of a line: every field the line does not set is 0 (30_encoding.md R68); a pseudo-command is
its one expansion (R69). -/
def assemble : Asm → Command
  | .fromU64 u      => ⟨0x1, zeroExtend u, 0, 0, 0⟩
  | .fromHex cs     => ⟨0x2, 0, 0, lenField cs.length, laneBuf 256 (cs.take Config.hexMaxChars)⟩
  | .fromBytes ds   => ⟨0x3, 0, 0, lenField ds.length, laneBuf 256 (ds.take Config.bytesMax)⟩
  | .cmp a b        => ⟨0x4, a, b, 0, 0⟩
  | .and a b        => ⟨0x5, a, b, 0, 0⟩
  | .or a b         => ⟨0x6, a, b, 0, 0⟩
  | .xor a b        => ⟨0x7, a, b, 0, 0⟩
  | .add a b        => ⟨0x8, a, b, 0, 0⟩
  | .sub a b        => ⟨0x9, a, b, 0, 0⟩
  | .toBytes a      => ⟨0xA, a, 0, 0, 0⟩
  | .toHexCompact a => ⟨0xB, a, 0, 0, 0⟩
  | .toHexCanon a   => ⟨0xC, a, 0, 0, 0⟩
  | .raw c          => c
  | .zero           => ⟨0x1, zeroExtend 0, 0, 0, 0⟩
  | .not a          => ⟨0x7, a, 0xffffffffffffffffffffffffffffffff, 0, 0⟩
  | .neg a          => ⟨0x9, 0, a, 0, 0⟩
  | .inc a          => ⟨0x8, a, 1, 0, 0⟩
  | .dec a          => ⟨0x9, a, 1, 0, 0⟩
  | .mov a          => ⟨0x6, a, 0, 0, 0⟩

/-! ## The text of a line (DESIGN CHOICE in its spacing and number spellings, log entry 9) -/

/-- A Lean string as the bytes of its characters (00_scope.md R12). -/
def ascii (s : String) : List Byte := s.toList.map fun c => BitVec.ofNat 8 c.toNat

/-- A word, a quoted string or a punctuation byte. -/
inductive Tok where
  | word (w : List Byte)
  | str (s : List Byte)
  | punct (c : Byte)
deriving DecidableEq, Repr

/-- What the lexer is inside of, its bytes so far last first. -/
inductive LexMode where
  | plain
  | word (acc : List Byte)
  | str (acc : List Byte)
  | comment
deriving DecidableEq, Repr

/-- Bytes of a mnemonic, a field name or a number: letters, digits, `_` and `.`. -/
def isWordByte (c : Byte) : Bool :=
  (0x30#8 ≤ c && c ≤ 0x39#8) || (0x41#8 ≤ c && c ≤ 0x5A#8) || (0x61#8 ≤ c && c ≤ 0x7A#8) ||
    c == 0x5F#8 || c == 0x2E#8

/-- The punctuation bytes: comma, equals sign, square brackets, curly brackets. -/
def isPunctByte (c : Byte) : Bool :=
  c == 0x2C#8 || c == 0x3D#8 || c == 0x5B#8 || c == 0x5D#8 || c == 0x7B#8 || c == 0x7D#8

/-- The lexer at a byte that continues nothing: `;` starts a comment, a double quote a string. -/
def lexStart (c : Byte) (out : List Tok) : Option (LexMode × List Tok) :=
  if c = 0x3B#8 then some (.comment, out)
  else if c = 0x22#8 then some (.str [], out)
  else if c = 0x20#8 ∨ c = 0x09#8 then some (.plain, out)
  else if isWordByte c then some (.word [c], out)
  else if isPunctByte c then some (.plain, .punct c :: out)
  else none

/-- One byte of the lexer; the tokens found are last first. -/
def lexByte (st : LexMode × List Tok) (c : Byte) : Option (LexMode × List Tok) :=
  match st with
  | (.comment, out)  => some (.comment, out)
  | (.str acc, out)  => if c = 0x22#8 then some (.plain, .str acc.reverse :: out) else some (.str (c :: acc), out)
  | (.word acc, out) => if isWordByte c then some (.word (c :: acc), out) else lexStart c (.word acc.reverse :: out)
  | (.plain, out)    => lexStart c out

/-- The tokens of a line; a string that does not close is no line. -/
def lexLine (text : List Byte) : Option (List Tok) :=
  match text.foldlM lexByte (LexMode.plain, []) with
  | some (.word acc, out) => some (Tok.word acc.reverse :: out).reverse
  | some (.plain, out)    => some out.reverse
  | some (.comment, out)  => some out.reverse
  | some (.str _, _)      => none
  | none                  => none

/-- The number of a `0x` word. -/
def hexNumber : List Byte → Option Nat
  | c :: x :: ds =>
    if c = 0x30#8 ∧ x = 0x78#8 ∧ ds ≠ [] ∧ ds.all ishex = true then
      some (ds.foldl (fun v d => v * 16 + (hexval d).toNat) 0)
    else none
  | _            => none

/-- The number of a word of decimal digits. -/
def decNumber (w : List Byte) : Option Nat :=
  if w ≠ [] ∧ w.all (fun c => 0x30#8 ≤ c && c ≤ 0x39#8) = true then
    some (w.foldl (fun v d => v * 10 + (d - 0x30#8).toNat) 0)
  else none

/-- A number in either spelling, below a bound. -/
def numberBelow (bound : Nat) (w : List Byte) : Option Nat :=
  match hexNumber w, decNumber w with
  | some n, _    => if n < bound then some n else none
  | none, some n => if n < bound then some n else none
  | none, none   => none

/-- A `0x` number below a bound. -/
def hexBelow (bound : Nat) (w : List Byte) : Option Nat :=
  match hexNumber w with
  | some n => if n < bound then some n else none
  | none   => none

/-- A 128-bit operand: a `0x` number, or two of them in curly brackets (30_encoding.md R68). -/
def parseValue : List Tok → Option (U128 × List Tok)
  | .word w :: rest => (hexBelow (2 ^ 128) w).map fun n => (BitVec.ofNat 128 n, rest)
  | .punct o :: .word h :: .punct m :: .word l :: .punct c :: rest =>
    if o = 0x7B#8 ∧ m = 0x2C#8 ∧ c = 0x7D#8 then
      match hexBelow (2 ^ 64) h, hexBelow (2 ^ 64) l with
      | some hi, some lo => some (pair (BitVec.ofNat 64 hi) (BitVec.ofNat 64 lo), rest)
      | _, _             => none
    else none
  | _ => none

/-- The bytes of a list after its opening bracket. -/
def parseByteItems : List Tok → Option (List Byte × List Tok)
  | .word w :: .punct c :: rest =>
    match hexBelow 256 w with
    | none   => none
    | some n =>
      if c = 0x5D#8 then some ([BitVec.ofNat 8 n], rest)
      else if c = 0x2C#8 then (parseByteItems rest).map fun (ds, r) => (BitVec.ofNat 8 n :: ds, r)
      else none
  | _ => none

/-- A byte list in square brackets, possibly empty (30_encoding.md R68). -/
def parseByteList : List Tok → Option (List Byte × List Tok)
  | .punct o :: .punct c :: rest => if o = 0x5B#8 ∧ c = 0x5D#8 then some ([], rest) else none
  | .punct o :: rest             => if o = 0x5B#8 then parseByteItems rest else none
  | _                            => none

/-- The `buf` of a raw command: a byte list or a string, of at most 32 elements (30_encoding.md R68). -/
def parseBuf (toks : List Tok) : Option (InBuf × List Tok) :=
  let found := match toks with
    | .str s :: rest => some (s, rest)
    | other          => parseByteList other
  match found with
  | some (l, rest) => if l.length ≤ Config.inLanes then some (laneBuf 256 l, rest) else none
  | none           => none

/-- A one-word number below a bound. -/
def parseNumber (bound : Nat) : List Tok → Option (Nat × List Tok)
  | .word w :: rest => (numberBelow bound w).map fun n => (n, rest)
  | _               => none

/-- An optional field `, <name>=<value>` of a raw command: its value, or the default where it is absent. -/
def optField {α : Type} (name : List Byte) (parse : List Tok → Option (α × List Tok)) (dflt : α)
    (toks : List Tok) : Option (α × List Tok) :=
  match toks with
  | .punct m :: .word n :: .punct e :: rest =>
    if m = 0x2C#8 ∧ n = name ∧ e = 0x3D#8 then parse rest else some (dflt, toks)
  | _ => some (dflt, toks)

/-- The fields of `.cmd`, in the order of 30_encoding.md R68. -/
def parseRaw : List Tok → Option Asm
  | .word n :: .punct e :: t0 =>
    if n = ascii "op" ∧ e = 0x3D#8 then do
      let (op, t1)  ← parseNumber 16 t0
      let (a, t2)   ← optField (ascii "a") parseValue 0 t1
      let (b, t3)   ← optField (ascii "b") parseValue 0 t2
      let (len, t4) ← optField (ascii "len") (parseNumber 256) 0 t3
      let (buf, t5) ← optField (ascii "buf") parseBuf 0 t4
      if t5 = [] then some (.raw ⟨BitVec.ofNat 4 op, a, b, BitVec.ofNat 8 len, buf⟩) else none
    else none
  | _ => none

/-- The mnemonics with two value operands. -/
def binaryAsm : List (List Byte × (U128 → U128 → Asm)) :=
  [(ascii "CMP", .cmp), (ascii "AND", .and), (ascii "OR", .or), (ascii "XOR", .xor), (ascii "ADD", .add),
   (ascii "SUB", .sub)]

/-- The mnemonics with one value operand. -/
def unaryAsm : List (List Byte × (U128 → Asm)) :=
  [(ascii "TO_BYTES", .toBytes), (ascii "TO_HEX_COMPACT", .toHexCompact), (ascii "TO_HEX_CANON", .toHexCanon),
   (ascii "NOT", .not), (ascii "NEG", .neg), (ascii "INC", .inc), (ascii "DEC", .dec), (ascii "MOV", .mov)]

/-- The operands of the constructors, `ZERO` and `.cmd`. -/
def parseSpecial (m : List Byte) (toks : List Tok) : Option Asm :=
  if m = ascii "FROM_U64" then do
    let (n, rest) ← parseNumber (2 ^ 64) toks
    if rest = [] then some (.fromU64 (BitVec.ofNat 64 n)) else none
  else if m = ascii "FROM_HEX" then
    match toks with
    | [.str s] => some (.fromHex s)
    | _        => none
  else if m = ascii "FROM_BYTES" then do
    let (ds, rest) ← parseByteList toks
    if rest = [] then some (.fromBytes ds) else none
  else if m = ascii "ZERO" then
    if toks = [] then some .zero else none
  else if m = ascii ".cmd" then parseRaw toks
  else none

/-- The command of a mnemonic and its operands (30_encoding.md R68, R69). -/
def parseOperands (m : List Byte) (toks : List Tok) : Option Asm :=
  match binaryAsm.lookup m, unaryAsm.lookup m with
  | some mk, _ => do
    let (a, t1) ← parseValue toks
    match t1 with
    | .punct c :: t2 => do
      let (b, t3) ← parseValue t2
      if c = 0x2C#8 ∧ t3 = [] then some (mk a b) else none
    | _ => none
  | none, some mk => do
    let (a, t1) ← parseValue toks
    if t1 = [] then some (mk a) else none
  | none, none => parseSpecial m toks

/-- Why a text is no line of the notation. -/
inductive AsmError where
  /-- The text is not of a form of 30_encoding.md R68 or R69. -/
  | notALine
deriving DecidableEq, Repr

/-- The command of a line of text, none for a line that holds only blanks or a comment. -/
def parseLine (text : List Byte) : Except AsmError (Option Asm) :=
  match lexLine text with
  | some []              => .ok none
  | some (.word m :: ts) =>
    match parseOperands m ts with
    | some x => .ok (some x)
    | none   => .error .notALine
  | _                    => .error .notALine

/-- The commands of a program text, one line each (30_encoding.md R68). -/
def assembleText : List (List Byte) → Except AsmError (List Command)
  | []      => .ok []
  | l :: ls =>
    match parseLine l, assembleText ls with
    | .ok (some x), .ok cs => .ok (assemble x :: cs)
    | .ok none, .ok cs     => .ok cs
    | .error e, _          => .error e
    | _, .error e          => .error e

end Sys2Proof.Machine
end

