-- ==== Sys2Proof/Machine/Response.lean ====
section
/-! DEFINITION. `Exec(cmd)`, the pure function from a command to its response (10_state.md R29). -/

namespace Sys2Proof.Machine

/-- The response of an instruction: the one operation rule that it selects (10_state.md R29). -/
def responseOf : Instr → Response
  | .reserved0           => respReserved
  | .fromU64 u           => respFromU64 u
  | .fromHex len chars   => respFromHex len chars
  | .fromBytes len bytes => respFromBytes len bytes
  | .cmp a b             => respCmp a b
  | .and a b             => respAnd a b
  | .or a b              => respOr a b
  | .xor a b             => respXor a b
  | .add a b             => respAdd a b
  | .sub a b             => respSub a b
  | .toBytes a           => respToBytes a
  | .toHexCompact a      => respToHexCompact a
  | .toHexCanon a        => respToHexCanon a
  | .reservedD           => respReserved
  | .reservedE           => respReserved
  | .reservedF           => respReserved

/-- `Exec(cmd)` (10_state.md R29). -/
def execResponse (c : Command) : Response := responseOf (decode c)

end Sys2Proof.Machine
end

