-- ==== Sys2Proof/Safety.lean ====
section
/-! DEFINITION. What holds of the response registers in every state a run from reset can reach. -/

namespace Sys2Proof.Machine

/-- Every code in a register is one the core produces (60_exceptions.md R150; 41_compare.md R100;
10_state.md R26). -/
abbrev State.CodesProduced (s : State) : Prop :=
  s.rspStatus.toNat ≤ 4 ∧ s.rspOrd ≠ 0b10#2 ∧ s.rspLen.toNat ≤ Config.outLanes

/-- Every lane from RSP_LEN up is 0 (10_state.md R28). -/
abbrev State.LanesPastLenZero (s : State) : Prop :=
  ∀ i < Config.outLanes, s.rspLen.toNat ≤ i → lane s.rspBuf i = 0#8

/-- A failed command leaves every other result register 0 (10_state.md R28). -/
abbrev State.FailureZero (s : State) : Prop :=
  s.rspStatus ≠ 0#3 → s.rspVal = 0#128 ∧ s.rspOrd = 0#2 ∧ s.rspLen = 0#6 ∧ s.rspBuf = 0#272

/-- A result register is non-zero only after an operation that produces it (10_state.md R28). -/
abbrev State.UnproducedZero (s : State) : Prop :=
  (s.rspOrd ≠ 0#2 → s.rspOp = 0x4#4) ∧
  (s.rspVal ≠ 0#128 → s.rspOp ∈ [0x1#4, 0x2#4, 0x3#4, 0x5#4, 0x6#4, 0x7#4, 0x8#4, 0x9#4]) ∧
  (s.rspLen ≠ 0#6 → s.rspOp ∈ [0xA#4, 0xB#4, 0xC#4])

/-- Each status code stands beside an opcode that raises it, and beside a reserved opcode stands ILLEGAL_OP,
but for the state before the first command (60_exceptions.md R150, R152, R153). -/
abbrev State.StatusRaised (s : State) : Prop :=
  (s.rspStatus = 1#3 ∨ s.rspStatus = 2#3 → s.rspOp = 0x2#4) ∧
  (s.rspStatus = 3#3 → s.rspOp = 0x3#4) ∧
  (s.rspStatus = 4#3 → isReservedOp s.rspOp = true) ∧
  (isReservedOp s.rspOp = true → s.rspStatus = 4#3 ∨ (s.rspOp = 0x0#4 ∧ s.rspStatus = 0#3 ∧ s.rspValid = false))

/-- The length each serializer reports (44_serialize.md R133, R135, R136). -/
abbrev State.SerialLength (s : State) : Prop :=
  (s.rspOp = 0xA#4 → s.rspLen = 16#6) ∧
  (s.rspOp = 0xB#4 → 1 ≤ s.rspLen.toNat ∧ s.rspLen.toNat ≤ 32) ∧
  (s.rspOp = 0xC#4 → s.rspLen = 34#6)

/-- The invariant of the response registers. -/
abbrev State.Inv (s : State) : Prop :=
  s.CodesProduced ∧ s.LanesPastLenZero ∧ s.FailureZero ∧ s.UnproducedZero ∧ s.StatusRaised ∧ s.SerialLength

/-- A safe step: it answers a next state, and the next state meets the invariant (60_exceptions.md R155: there
is no trap; 10_state.md R29: `Exec` is total). -/
def SafeStep (s : State) : Prop := ∃ t, step s = .next t ∧ t.Inv

end Sys2Proof.Machine
end

