-- ==== Sys2Proof/Certificates/Slice0/Obligations.lean ====
section
/-! DEFINITION. The statements for the provers. A statement about an instruction gives its whole next state, so
it says at once that the instruction completes, what it writes, and that it leaves the inputs to come alone. -/

namespace Sys2Proof.Statements

open Sys2Proof.Machine

/-- `s` after an accepted command: RSP_VALID is 1, the six other response registers hold these values, and
nothing else changes (10_state.md R30). -/
def answered (s : State) (op : BitVec 4) (status : BitVec 3) (val : BitVec 128) (ord : BitVec 2) (len : BitVec 6)
    (buf : BitVec 272) : State :=
  { s with
    rspValid := true, rspOp := op, rspStatus := status, rspVal := val, rspOrd := ord, rspLen := len
    rspBuf := buf }

/-- Two commands that agree on every field the operation reads, by the table of 10_state.md R25. -/
abbrev SameReads (c d : Command) : Prop :=
  c.op = d.op ∧
  (c.op = 0x1#4 → c.a.extractLsb' 0 64 = d.a.extractLsb' 0 64) ∧
  (c.op = 0x2#4 → c.len = d.len ∧
    (c.len.toNat ≤ 32 → ∀ i < c.len.toNat, c.buf.extractLsb' (8 * i) 8 = d.buf.extractLsb' (8 * i) 8)) ∧
  (c.op = 0x3#4 → c.len = d.len ∧
    (c.len.toNat ≤ 16 → ∀ i < c.len.toNat, c.buf.extractLsb' (8 * i) 8 = d.buf.extractLsb' (8 * i) 8)) ∧
  (c.op ∈ [0x4#4, 0x5#4, 0x6#4, 0x7#4, 0x8#4, 0x9#4] → c.a = d.a ∧ c.b = d.b) ∧
  (c.op ∈ [0xA#4, 0xB#4, 0xC#4] → c.a = d.a)

/-- RSP_BUF holds the sequence `l` from lane 0 and 0 in every lane past it (10_state.md R26, R28). -/
abbrev BufHolds (buf : BitVec 272) (l : List Byte) : Prop :=
  ∀ i < 34, buf.extractLsb' (8 * i) 8 = l.getD i 0#8

end Sys2Proof.Statements

open Sys2Proof Sys2Proof.Machine Sys2Proof.Statements

/-! ## The step -/

/-- 10_state.md R30, R27 and 70_reset_and_hazards.md R170: the four cases of the step. Where the inputs that R30's
step takes stand, and that the sample is gone after it, is the form of the model (log entry 1). -/
def Obligations.ClockStepFollowsItsRule : Prop :=
  ∀ (s : State) (p : PortInput) (rest : List PortInput), s.inputs = p :: rest →
    (p.rise = false → step s = .next { s with inputs := rest }) ∧
    (p.rise = true → p.rst = true →
      step s = .next
        { rspValid := false, rspOp := 0, rspStatus := 0, rspVal := 0, rspOrd := 0, rspLen := 0, rspBuf := 0
          inputs := rest }) ∧
    (p.rise = true → p.rst = false → p.cmdValid = true →
      step s = .next
        { rspValid := true, rspOp := p.cmd.op, rspStatus := (execResponse p.cmd).status
          rspVal := (execResponse p.cmd).val, rspOrd := (execResponse p.cmd).ord
          rspLen := (execResponse p.cmd).len, rspBuf := (execResponse p.cmd).buf, inputs := rest }) ∧
    (p.rise = true → p.rst = false → p.cmdValid = false →
      step s = .next { s with rspValid := false, inputs := rest })

/-- 10_state.md R24 and R29: a step at which a command is accepted is `exec` of what the command decodes to,
the input sample consumed. -/
def Obligations.AcceptedCommandRunsItsInstruction : Prop :=
  ∀ (s : State) (p : PortInput) (rest : List PortInput) (cw : CmdWord), s.inputs = p :: rest → p.rise = true →
    p.rst = false → p.cmdValid = true → p.cmd = unpack cw →
    step s = exec (decodeWord cw) { s with inputs := rest }

/-- The same through the host's placement of a command word (the model's choice, log entry 3). -/
def Obligations.FetchWordRunsItsInstruction : Prop :=
  ∀ (s : State) (nbits w : Nat),
    step (s.withFetchWord nbits w) =
      exec (decodeWord (BitVec.ofNat 524 (w % 2 ^ nbits))) { s with inputs := s.inputs.tail }

/-- The decoder on the bytes of a table word reads the same command word (the byte layout is the model's
choice, log entry 4). -/
def Obligations.TableWordDecodesAsItsCommandWord : Prop :=
  ∀ nbits w : Nat, nbits ≤ 524 →
    decodeTableWord nbits w = some (decodeWord (BitVec.ofNat 524 (w % 2 ^ nbits)))

/-- With no input sample left the state is kept (the model's choice, log entry 2). -/
def Obligations.StoppedClockKeepsTheState : Prop :=
  ∀ s : State, s.inputs = [] → step s = .next s

/-- Every step answers a next state, whatever the state and the inputs (10_state.md R29: `Exec` is total;
60_exceptions.md R155: no trap), and no command alters what a later edge presents (R31). The model's choice: that
the samples to come stand in State, so that a step leaves `s.inputs.tail` (log entry 1), and that a step with no
sample left answers a next state (log entry 2). -/
def Obligations.EveryStepAnswersAndKeepsLaterInputs : Prop :=
  ∀ s : State, ∃ t, step s = .next t ∧ t.inputs = s.inputs.tail

/-- 10_state.md R25 (and R36): the outputs after an accepted command do not depend on an unread field or on the
state before. -/
def Obligations.UnreadFieldsAndHistoryHaveNoEffect : Prop :=
  ∀ (c d : Command) (s₁ s₂ : State) (r₁ r₂ : List PortInput), SameReads c d →
    s₁.inputs = { rise := true, rst := false, cmdValid := true, cmd := c } :: r₁ →
    s₂.inputs = { rise := true, rst := false, cmdValid := true, cmd := d } :: r₂ →
    ∃ t₁ t₂, step s₁ = .next t₁ ∧ step s₂ = .next t₂ ∧ t₁.outputs = t₂.outputs

/-- The invariant of the response registers is kept by every step (10_state.md R26, R28; 60_exceptions.md R150,
R152, R153; 41_compare.md R100; for the lengths 16, 1 to 32 and 34 of the serializers 44_serialize.md R133, R135,
R136). -/
def Obligations.StepKeepsResponseInvariant : Prop :=
  ∀ s t : State, s.Inv → step s = .next t → t.Inv

/-- The state after reset meets the invariant. -/
def Obligations.ResetStateMeetsResponseInvariant : Prop :=
  State.reset.Inv

/-- The reset values of 10_state.md R26; that no input is given yet is the model's choice (log entry 1). -/
def Obligations.ResetStateIsAllZero : Prop :=
  State.reset =
    { rspValid := false, rspOp := 0, rspStatus := 0, rspVal := 0, rspOrd := 0, rspLen := 0, rspBuf := 0
      inputs := [] }

/-! ## The encoding -/

/-- Decoding the encoded command word of a well-formed instruction gives it back, every operand at every value. -/
def Obligations.DecodeOfEncodeIsTheInstruction : Prop :=
  ∀ i : Instr, i.WellFormed → decodeWord (encode i) = i

/-- Every command word decodes to a well-formed instruction: a sequence it carries has as many elements as lanes
are read (10_state.md R25). Which lanes these are is in `FromHexFollowsItsRule` and `FromBytesFollowsItsRule`. -/
def Obligations.DecodedInstructionsAreWellFormed : Prop :=
  ∀ cw : CmdWord, (decodeWord cw).WellFormed

/-- 30_encoding.md R60: the field positions of the packed command word, and that packing loses nothing. -/
def Obligations.CommandWordFieldsStandWhereSaid : Prop :=
  (∀ c : Command, unpack (pack c) = c) ∧ (∀ cw : CmdWord, pack (unpack cw) = cw) ∧
  (∀ c : Command,
    (pack c).extractLsb' 0 4 = c.op ∧ (pack c).extractLsb' 4 128 = c.a ∧ (pack c).extractLsb' 132 128 = c.b ∧
    (pack c).extractLsb' 260 8 = c.len ∧ (pack c).extractLsb' 268 256 = c.buf ∧
    (pack c).extractLsb' 68 64 = high c.a ∧ (pack c).extractLsb' 4 64 = low c.a ∧
    (pack c).extractLsb' 196 64 = high c.b ∧ (pack c).extractLsb' 132 64 = low c.b ∧
    ∀ i < 32, (pack c).extractLsb' (268 + 8 * i) 8 = lane c.buf i)

/-- 30_encoding.md R61: the opcode alone selects the operation. The operand of 0x1 and the sequences of 0x2 and 0x3
are in `FromU64ZeroExtendsItsOperand`, `FromHexFollowsItsRule` and `FromBytesFollowsItsRule`. -/
def Obligations.OpcodeAloneSelectsTheOperation : Prop :=
  ∀ c : Command,
    (decode c).opcode = c.op ∧
    (c.op = 0x0#4 → decode c = .reserved0) ∧
    (c.op = 0x1#4 → ∃ u, decode c = .fromU64 u) ∧
    (c.op = 0x2#4 → ∃ l, decode c = .fromHex c.len l) ∧
    (c.op = 0x3#4 → ∃ l, decode c = .fromBytes c.len l) ∧
    (c.op = 0x4#4 → decode c = .cmp c.a c.b) ∧
    (c.op = 0x5#4 → decode c = .and c.a c.b) ∧
    (c.op = 0x6#4 → decode c = .or c.a c.b) ∧
    (c.op = 0x7#4 → decode c = .xor c.a c.b) ∧
    (c.op = 0x8#4 → decode c = .add c.a c.b) ∧
    (c.op = 0x9#4 → decode c = .sub c.a c.b) ∧
    (c.op = 0xA#4 → decode c = .toBytes c.a) ∧
    (c.op = 0xB#4 → decode c = .toHexCompact c.a) ∧
    (c.op = 0xC#4 → decode c = .toHexCanon c.a) ∧
    (c.op = 0xD#4 → decode c = .reservedD) ∧
    (c.op = 0xE#4 → decode c = .reservedE) ∧
    (c.op = 0xF#4 → decode c = .reservedF)

/-- The table rows cover the sixteen codes and no two overlap (the spec derives this in 30_encoding.md R62). -/
def Obligations.OpcodeRowsPartitionTheCodes : Prop :=
  opcodeTable.length = 16 ∧ ∀ op : OpBits, (opcodeTable.filter (·.matchesOp op)).length = 1

/-- Three command words of the programs of 95_test_vectors.md L3 decode to their commands. -/
def Obligations.SpecProgramWordsDecode : Prop :=
  decodeWord 0x00000000000000000000000000000000000000000000000000000000000000000000000000000000000000000000000001000000000000000100000000000000009#524
    = .sub (pair 1 0) 1 ∧
  decodeWord 0x00000000000000000000000000000000000000000000000000000000000002010200000000000000000000000000000000000000000000000000000000000000003#524
    = .fromBytes 2 [0x01, 0x02] ∧
  decodeWord 0x00000000000000000000000000000000000000000000000000000000323178300400000000000000000000000000000000000000000000000000000000000000002#524
    = .fromHex 4 [0x30, 0x78, 0x31, 0x32]

/-! ## Reserved opcodes and the status register -/

/-- 60_exceptions.md R153: the four reserved opcodes answer ILLEGAL_OP and read nothing. -/
def Obligations.ReservedOpcodesAnswerIllegalOp : Prop :=
  (∀ s : State, exec .reserved0 s = .next (answered s 0x0 4 0 0 0 0)) ∧
  (∀ s : State, exec .reservedD s = .next (answered s 0xD 4 0 0 0 0)) ∧
  (∀ s : State, exec .reservedE s = .next (answered s 0xE 4 0 0 0 0)) ∧
  (∀ s : State, exec .reservedF s = .next (answered s 0xF 4 0 0 0 0)) ∧
  (∀ (c : Command) (s : State), c.op ∈ [0x0#4, 0xD#4, 0xE#4, 0xF#4] →
    exec (decode c) s = .next (answered s c.op 4 0 0 0 0))

/-- 60_exceptions.md R150, R151, R152 and R154: which command reports which status, and that a FormatError
leaves the value 0. -/
def Obligations.StatusOfEveryCommand : Prop :=
  ∀ (c : Command) (s : State), ∃ t, exec (decode c) s = .next t ∧ t.rspStatus.toNat ≤ 4 ∧
    (t.rspStatus = 1#3 ↔ c.op = 0x2#4 ∧ 32 < c.len.toNat) ∧
    (t.rspStatus = 2#3 ↔ c.op = 0x2#4 ∧ c.len.toNat ≤ 32 ∧
      ∃ i < c.len.toNat, ishex (c.buf.extractLsb' (8 * i) 8) = false) ∧
    (t.rspStatus = 3#3 ↔ c.op = 0x3#4 ∧ 16 < c.len.toNat) ∧
    (t.rspStatus = 4#3 ↔ c.op ∈ [0x0#4, 0xD#4, 0xE#4, 0xF#4]) ∧
    (isFormatError t.rspStatus = true ↔ t.rspStatus ∈ [1#3, 2#3, 3#3]) ∧
    (isFormatError t.rspStatus = true → t.rspVal = 0#128)

/-- 10_state.md R28: every accepted command writes every response register, at 0 what it does not produce. -/
def Obligations.UnproducedFieldsAreWrittenZero : Prop :=
  ∀ (c : Command) (s : State), ∃ t, exec (decode c) s = .next t ∧ t.rspValid = true ∧ t.rspOp = c.op ∧
    (c.op ∉ [0x1#4, 0x2#4, 0x3#4, 0x5#4, 0x6#4, 0x7#4, 0x8#4, 0x9#4] → t.rspVal = 0#128) ∧
    (c.op ≠ 0x4#4 → t.rspOrd = 0#2) ∧
    (c.op ∉ [0xA#4, 0xB#4, 0xC#4] → t.rspLen = 0#6 ∧ t.rspBuf = 0#272) ∧
    (c.op ∉ [0x0#4, 0x2#4, 0x3#4, 0xD#4, 0xE#4, 0xF#4] → t.rspStatus = 0#3) ∧
    (∀ i < 34, t.rspLen.toNat ≤ i → t.rspBuf.extractLsb' (8 * i) 8 = 0#8) ∧
    (t.rspStatus ≠ 0#3 → t.rspVal = 0#128 ∧ t.rspOrd = 0#2 ∧ t.rspLen = 0#6 ∧ t.rspBuf = 0#272)

/-! ## The constructors -/

/-- 40_construct.md R80: FROM_U64. -/
def Obligations.FromU64ZeroExtendsItsOperand : Prop :=
  (∀ c : Command, c.op = 0x1#4 → decode c = .fromU64 (c.a.extractLsb' 0 64)) ∧
  (∀ (u : Half) (s : State),
    exec (.fromU64 u) s = .next (answered s 0x1 0 (BitVec.ofNat 128 u.toNat) 0 0 0))

/-- 40_construct.md R81: the 22 byte codes of the hex digits and their values. -/
def Obligations.HexDigitAlphabetAndValues : Prop :=
  ∀ c : Byte,
    (ishex c = true ↔
      (0x30 ≤ c.toNat ∧ c.toNat ≤ 0x39) ∨ (0x41 ≤ c.toNat ∧ c.toNat ≤ 0x46) ∨ (0x61 ≤ c.toNat ∧ c.toNat ≤ 0x66)) ∧
    (0x30 ≤ c.toNat ∧ c.toNat ≤ 0x39 → (hexval c).toNat = c.toNat - 0x30) ∧
    (0x41 ≤ c.toNat ∧ c.toNat ≤ 0x46 → (hexval c).toNat = c.toNat - 0x37) ∧
    (0x61 ≤ c.toNat ∧ c.toNat ≤ 0x66 → (hexval c).toNat = c.toNat - 0x57)

/-- 40_construct.md R83: FROM_HEX, the length tested first, then the characters, then the value by the loop. -/
def Obligations.FromHexFollowsItsRule : Prop :=
  (∀ c : Command, c.op = 0x2#4 →
    (32 < c.len.toNat → decode c = .fromHex c.len []) ∧
    (c.len.toNat ≤ 32 →
      decode c = .fromHex c.len ((List.range c.len.toNat).map fun i => c.buf.extractLsb' (8 * i) 8))) ∧
  (∀ (len : Byte) (chars : List Byte) (s : State), (Instr.fromHex len chars).WellFormed →
    (32 < len.toNat → exec (.fromHex len chars) s = .next (answered s 0x2 1 0 0 0 0)) ∧
    (len.toNat ≤ 32 → (∃ ch ∈ chars, ishex ch = false) →
      exec (.fromHex len chars) s = .next (answered s 0x2 2 0 0 0 0)) ∧
    (len.toNat ≤ 32 → (∀ ch ∈ chars, ishex ch = true) →
      exec (.fromHex len chars) s = .next (answered s 0x2 0
        (BitVec.ofNat 128 (chars.foldl (fun v ch => v * 16 + (hexval ch).toNat) 0)) 0 0 0)))

/-- The value of a hex string is the positional sum of its digits, with no overflow (the spec derives this in
40_construct.md R84). -/
def Obligations.HexValueIsThePositionalSum : Prop :=
  ∀ (len : Byte) (chars : List Byte) (s : State), (Instr.fromHex len chars).WellFormed → len.toNat ≤ 32 →
    (∀ ch ∈ chars, ishex ch = true) →
    ∃ t, exec (.fromHex len chars) s = .next t ∧ t.rspStatus = 0#3 ∧
      t.rspVal.toNat =
        ((List.range len.toNat).map fun i => (hexval (chars.getD i 0#8)).toNat * 16 ^ (len.toNat - 1 - i)).sum

/-- 40_construct.md R89: FROM_BYTES. -/
def Obligations.FromBytesFollowsItsRule : Prop :=
  (∀ c : Command, c.op = 0x3#4 →
    (16 < c.len.toNat → decode c = .fromBytes c.len []) ∧
    (c.len.toNat ≤ 16 →
      decode c = .fromBytes c.len ((List.range c.len.toNat).map fun i => c.buf.extractLsb' (8 * i) 8))) ∧
  (∀ (len : Byte) (bytes : List Byte) (s : State), (Instr.fromBytes len bytes).WellFormed →
    (16 < len.toNat → exec (.fromBytes len bytes) s = .next (answered s 0x3 3 0 0 0 0)) ∧
    (len.toNat ≤ 16 →
      exec (.fromBytes len bytes) s = .next (answered s 0x3 0
        (BitVec.ofNat 128 (bytes.foldl (fun v d => v * 256 + d.toNat) 0)) 0 0 0)))

/-- A short byte sequence is the low-order bytes of the value, zero bytes before it (the spec derives this in
40_construct.md R90). -/
def Obligations.ShortByteInputIsLeftPadded : Prop :=
  ∀ (len : Byte) (bytes : List Byte) (s : State), (Instr.fromBytes len bytes).WellFormed → len.toNat ≤ 16 →
    ∃ t, exec (.fromBytes len bytes) s = .next t ∧
      ∀ i < 16, t.rspVal.extractLsb' (120 - 8 * i) 8 =
        (List.replicate (16 - len.toNat) 0#8 ++ bytes).getD i 0#8

/-! ## The comparison -/

/-- 41_compare.md R100 and R101: CMP compares the high halves first, and the codes read as orderings only after
a CMP. -/
def Obligations.CmpComparesHalvesAndReportsTheOrder : Prop :=
  (∀ c : Command, c.op = 0x4#4 → decode c = .cmp c.a c.b) ∧
  (∀ (a b : U128) (s : State),
    exec (.cmp a b) s = .next (answered s 0x4 0 0
      (if (high a).toNat < (high b).toNat then 0b11
       else if (high b).toNat < (high a).toNat then 0b01
       else if (low a).toNat < (low b).toNat then 0b11
       else if (low b).toNat < (low a).toNat then 0b01
       else 0b00) 0 0)) ∧
  (orderingOfCode 0b11 = some .lt ∧ orderingOfCode 0b00 = some .eq ∧ orderingOfCode 0b01 = some .gt ∧
    orderingOfCode 0b10 = none) ∧
  (∀ (c : Command) (s : State), ∃ t, exec (decode c) s = .next t ∧ t.rspOrd ≠ 0b10#2 ∧
    (c.op = 0x4#4 → t.ordering = orderingOfCode t.rspOrd) ∧
    (c.op ≠ 0x4#4 → t.rspOrd = 0b00#2 ∧ t.ordering = none))

/-- CMP is the order of the 128-bit numbers (the spec derives this in 41_compare.md R102). -/
def Obligations.CmpIsTheUnsignedOrder : Prop :=
  ∀ (a b : U128) (s : State), ∃ t, exec (.cmp a b) s = .next t ∧
    (t.rspOrd = 0b11#2 ↔ a.toNat < b.toNat) ∧ (t.rspOrd = 0b00#2 ↔ a = b) ∧ (t.rspOrd = 0b01#2 ↔ b.toNat < a.toNat)

/-- Antisymmetry, as negation of the codes, and transitivity (the spec derives this in 41_compare.md R103). -/
def Obligations.CmpIsAntisymmetricAndTransitive : Prop :=
  (∀ (a b : U128) (s s' : State), ∃ t t', exec (.cmp a b) s = .next t ∧ exec (.cmp b a) s' = .next t' ∧
    t'.rspOrd = -t.rspOrd) ∧
  (∀ (a b c : U128) (s₁ s₂ s₃ : State), ∃ t₁ t₂ t₃, exec (.cmp a b) s₁ = .next t₁ ∧
    exec (.cmp b c) s₂ = .next t₂ ∧ exec (.cmp a c) s₃ = .next t₃ ∧
    (t₁.rspOrd = 0b11#2 → t₂.rspOrd = 0b11#2 → t₃.rspOrd = 0b11#2))

/-! ## The bitwise operations -/

/-- 42_bitwise.md R106, R107 and R108: AND, OR and XOR on the high halves and on the low halves. -/
def Obligations.BitwiseOperationsActOnBothHalves : Prop :=
  (∀ c : Command, (c.op = 0x5#4 → decode c = .and c.a c.b) ∧ (c.op = 0x6#4 → decode c = .or c.a c.b) ∧
    (c.op = 0x7#4 → decode c = .xor c.a c.b)) ∧
  (∀ (a b : U128) (s : State),
    exec (.and a b) s = .next (answered s 0x5 0 (pair (high a &&& high b) (low a &&& low b)) 0 0 0)) ∧
  (∀ (a b : U128) (s : State),
    exec (.or a b) s = .next (answered s 0x6 0 (pair (high a ||| high b) (low a ||| low b)) 0 0 0)) ∧
  (∀ (a b : U128) (s : State),
    exec (.xor a b) s = .next (answered s 0x7 0 (pair (high a ^^^ high b) (low a ^^^ low b)) 0 0 0))

/-- Bit `i` of the result depends on bit `i` of the operands alone (the spec derives this in 42_bitwise.md R105). -/
def Obligations.BitwiseOperationsActOnEachBit : Prop :=
  ∀ (a b : U128) (s : State), ∃ t₁ t₂ t₃, exec (.and a b) s = .next t₁ ∧ exec (.or a b) s = .next t₂ ∧
    exec (.xor a b) s = .next t₃ ∧
    ∀ i < 128, t₁.rspVal.getLsbD i = (a.getLsbD i && b.getLsbD i) ∧
      t₂.rspVal.getLsbD i = (a.getLsbD i || b.getLsbD i) ∧ t₃.rspVal.getLsbD i = (a.getLsbD i ^^ b.getLsbD i)

/-! ## The arithmetic operations -/

/-- 43_arith.md R116: ADD by halves with the carry of the low halves, and no flag. -/
def Obligations.AddCarriesFromLowToHigh : Prop :=
  (∀ c : Command, c.op = 0x8#4 → decode c = .add c.a c.b) ∧
  (∀ (a b : U128) (s : State),
    exec (.add a b) s = .next (answered s 0x8 0
      (pair (high a + high b + (if low a + low b < low a then 1 else 0)) (low a + low b)) 0 0 0))

/-- ADD is the sum modulo 2^128 (the spec derives this in 43_arith.md R117). -/
def Obligations.AddIsTheSumModulo : Prop :=
  ∀ (a b : U128) (s : State), ∃ t, exec (.add a b) s = .next t ∧
    t.rspVal.toNat = (a.toNat + b.toNat) % 2 ^ 128

/-- 43_arith.md R120: SUB by halves with the borrow of the low halves, and no flag. -/
def Obligations.SubBorrowsFromHighForLow : Prop :=
  (∀ c : Command, c.op = 0x9#4 → decode c = .sub c.a c.b) ∧
  (∀ (a b : U128) (s : State),
    exec (.sub a b) s = .next (answered s 0x9 0
      (pair (high a - high b - (if low a < low b then 1 else 0)) (low a - low b)) 0 0 0))

/-- SUB is the difference modulo 2^128 (the spec derives this in 43_arith.md R121). -/
def Obligations.SubIsTheDifferenceModulo : Prop :=
  ∀ (a b : U128) (s : State), ∃ t, exec (.sub a b) s = .next t ∧
    (b.toNat ≤ a.toNat → t.rspVal.toNat = a.toNat - b.toNat) ∧
    (a.toNat < b.toNat → t.rspVal.toNat = 2 ^ 128 + a.toNat - b.toNat)

/-- ADD and SUB undo each other when the host presents the result again (the spec derives this in
43_arith.md R123). -/
def Obligations.AddAndSubUndoEachOther : Prop :=
  ∀ (a b : U128) (s : State),
    (∃ t u, exec (.add a b) s = .next t ∧ exec (.sub t.rspVal b) t = .next u ∧ u.rspVal = a) ∧
    (∃ t u, exec (.sub a b) s = .next t ∧ exec (.add t.rspVal b) t = .next u ∧ u.rspVal = a)

/-! ## The serializers -/

/-- 44_serialize.md R130: the lowercase hex character of a digit. -/
def Obligations.HexcharIsLowercaseAscii : Prop :=
  ∀ d : BitVec 4, (d.toNat ≤ 9 → (hexchar d).toNat = 0x30 + d.toNat) ∧
    (10 ≤ d.toNat → (hexchar d).toNat = 0x57 + d.toNat)

/-- 44_serialize.md R131 and R132: the digits of `hexmin` and of `hexfix`, the most significant first. -/
def Obligations.HexStringsFollowTheirRules : Prop :=
  (∀ v : Half,
    (hexmin v).length = max 1 ((Nat.size v.toNat + 3) / 4) ∧
    (∀ j < (hexmin v).length,
      (hexmin v).getD j 0#8 = hexchar (v.extractLsb' (4 * ((hexmin v).length - 1 - j)) 4)) ∧
    (v = 0#64 → hexmin v = [0x30#8]) ∧ (v ≠ 0#64 → (hexmin v).getD 0 0#8 ≠ 0x30#8)) ∧
  (∀ (w : Nat) (v : BitVec w) (n : Nat), v.toNat < 16 ^ n →
    (hexfix v n).length = n ∧
    ∀ j < n, (hexfix v n).getD j 0#8 = hexchar (BitVec.ofNat 4 (v.toNat / 16 ^ (n - 1 - j))))

/-- 44_serialize.md R133: TO_BYTES. -/
def Obligations.ToBytesWritesSixteenBytes : Prop :=
  (∀ c : Command, c.op = 0xA#4 → decode c = .toBytes c.a) ∧
  (∀ (a : U128) (s : State), ∃ buf, exec (.toBytes a) s = .next (answered s 0xA 0 0 0 16 buf) ∧
    (∀ i < 16, buf.extractLsb' (8 * i) 8 = a.extractLsb' (120 - 8 * i) 8) ∧
    (∀ i, 16 ≤ i → i < 34 → buf.extractLsb' (8 * i) 8 = 0#8))

/-- 44_serialize.md R134: TO_HEX_COMPACT. -/
def Obligations.ToHexCompactWritesTheCompactString : Prop :=
  (∀ c : Command, c.op = 0xB#4 → decode c = .toHexCompact c.a) ∧
  (∀ (a : U128) (s : State), ∃ len buf l, exec (.toHexCompact a) s = .next (answered s 0xB 0 0 0 len buf) ∧
    (high a = 0#64 → l = hexmin (low a)) ∧ (high a ≠ 0#64 → l = hexmin (high a) ++ hexfix (low a) 16) ∧
    len.toNat = l.length ∧ BufHolds buf l)

/-- The length of the compact string tells the case, and the string is the minimum-width hex of the value (the
spec derives this in 44_serialize.md R135). -/
def Obligations.CompactStringIsMinimumWidthHex : Prop :=
  ∀ (a : U128) (s : State), ∃ t, exec (.toHexCompact a) s = .next t ∧
    (high a = 0#64 → 1 ≤ t.rspLen.toNat ∧ t.rspLen.toNat ≤ 16) ∧
    (high a ≠ 0#64 → 17 ≤ t.rspLen.toNat ∧ t.rspLen.toNat ≤ 32 ∧ t.rspBuf.extractLsb' 0 8 ≠ 0x30#8) ∧
    t.rspLen.toNat = max 1 ((Nat.size a.toNat + 3) / 4) ∧ BufHolds t.rspBuf (hexmin a)

/-- 44_serialize.md R136: TO_HEX_CANON. -/
def Obligations.ToHexCanonPadsTheCompactString : Prop :=
  (∀ c : Command, c.op = 0xC#4 → decode c = .toHexCanon c.a) ∧
  (∀ (a : U128) (s : State), ∃ buf, exec (.toHexCanon a) s = .next (answered s 0xC 0 0 0 34 buf) ∧
    ∀ l, (l = if high a = 0#64 then hexmin (low a) else hexmin (high a) ++ hexfix (low a) 16) →
      l.length ≤ 32 ∧ BufHolds buf ([0x30#8, 0x78#8] ++ List.replicate (32 - l.length) 0x30#8 ++ l))

/-- The canonical string is `"0x"` and the 32-digit hex of the value (the spec derives this in
44_serialize.md R137). -/
def Obligations.CanonicalStringIsFixedWidthHex : Prop :=
  ∀ (a : U128) (s : State), ∃ t, exec (.toHexCanon a) s = .next t ∧
    BufHolds t.rspBuf ([0x30#8, 0x78#8] ++ hexfix a 32)

/-! ## Round trips: the host presents what the core has just answered -/

/-- FROM_BYTES of the sixteen lanes that TO_BYTES wrote (the spec derives this in 40_construct.md R92). -/
def Obligations.ByteRoundTripReturnsTheValue : Prop :=
  ∀ (a b₁ b₂ : U128) (s : State), ∃ t u, exec (.toBytes a) s = .next t ∧
    exec (decode { op := 0x3, a := b₁, b := b₂, len := 16, buf := t.rspBuf.extractLsb' 0 256 }) t = .next u ∧
    u.rspStatus = 0#3 ∧ u.rspVal = a

/-- FROM_HEX of the compact string gives the value back; the canonical string is too long; its last 32 characters
give the value back (the spec derives this in 40_construct.md R93). -/
def Obligations.HexRoundTripReturnsTheValue : Prop :=
  ∀ (a : U128) (s : State),
    (∃ t u, exec (.toHexCompact a) s = .next t ∧
      exec (decode { op := 0x2, a := 0, b := 0, len := t.rspLen.setWidth 8, buf := t.rspBuf.extractLsb' 0 256 }) t
        = .next u ∧
      u.rspStatus = 0#3 ∧ u.rspVal = a) ∧
    (∃ t u v, exec (.toHexCanon a) s = .next t ∧
      exec (decode { op := 0x2, a := 0, b := 0, len := t.rspLen.setWidth 8, buf := t.rspBuf.extractLsb' 0 256 }) t
        = .next u ∧
      u.rspStatus = 1#3 ∧ u.rspVal = 0#128 ∧
      exec (decode { op := 0x2, a := 0, b := 0, len := 32, buf := t.rspBuf.extractLsb' 16 256 }) t = .next v ∧
      v.rspStatus = 0#3 ∧ v.rspVal = a)

/-! ## The assembly notation -/

/-- The fields that a sequence line sets, and that a sequence too long to count answers as its true length does
(30_encoding.md R64 and the table of R68; decode of the other lines is their operation on their operands). -/
def Obligations.AssembledLinesSetTheirFields : Prop :=
  (∀ l : List Byte,
    (assemble (.fromHex l)).op = 0x2#4 ∧ (assemble (.fromHex l)).len.toNat = min l.length 255 ∧
    (∀ i < 32, (assemble (.fromHex l)).buf.extractLsb' (8 * i) 8 = l.getD i 0#8) ∧
    (assemble (.fromBytes l)).op = 0x3#4 ∧ (assemble (.fromBytes l)).len.toNat = min l.length 255 ∧
    (∀ i < 32, (assemble (.fromBytes l)).buf.extractLsb' (8 * i) 8 = (l.take 16).getD i 0#8)) ∧
  (∀ (l : List Byte) (s : State),
    (32 < l.length → exec (decode (assemble (.fromHex l))) s = .next (answered s 0x2 1 0 0 0 0)) ∧
    (16 < l.length → exec (decode (assemble (.fromBytes l))) s = .next (answered s 0x3 3 0 0 0 0))) ∧
  (∀ (u : Half) (a b : U128) (c : Command),
    decode (assemble (.fromU64 u)) = .fromU64 u ∧ decode (assemble (.cmp a b)) = .cmp a b ∧
    decode (assemble (.and a b)) = .and a b ∧ decode (assemble (.or a b)) = .or a b ∧
    decode (assemble (.xor a b)) = .xor a b ∧ decode (assemble (.add a b)) = .add a b ∧
    decode (assemble (.sub a b)) = .sub a b ∧ decode (assemble (.toBytes a)) = .toBytes a ∧
    decode (assemble (.toHexCompact a)) = .toHexCompact a ∧ decode (assemble (.toHexCanon a)) = .toHexCanon a ∧
    assemble (.raw c) = c)

/-- The expansions of the pseudo-commands and their results (the spec derives them in 30_encoding.md R69). -/
def Obligations.PseudoCommandsComputeTheirResults : Prop :=
  ∀ (a : U128) (s : State),
    (assemble .zero = assemble (.fromU64 0) ∧ assemble (.neg a) = assemble (.sub 0 a) ∧
      assemble (.not a) = assemble (.xor a 0xffffffffffffffffffffffffffffffff) ∧
      assemble (.inc a) = assemble (.add a 1) ∧ assemble (.dec a) = assemble (.sub a 1) ∧
      assemble (.mov a) = assemble (.or a 0)) ∧
    exec (decode (assemble .zero)) s = .next (answered s 0x1 0 0 0 0 0) ∧
    exec (decode (assemble (.not a))) s = .next (answered s 0x7 0 (~~~ a) 0 0 0) ∧
    exec (decode (assemble (.neg a))) s = .next (answered s 0x9 0 (BitVec.ofNat 128 (2 ^ 128 - a.toNat)) 0 0 0) ∧
    exec (decode (assemble (.inc a))) s = .next (answered s 0x8 0 (BitVec.ofNat 128 (a.toNat + 1)) 0 0 0) ∧
    exec (decode (assemble (.dec a))) s =
      .next (answered s 0x9 0 (BitVec.ofNat 128 (a.toNat + (2 ^ 128 - 1))) 0 0 0) ∧
    exec (decode (assemble (.mov a))) s = .next (answered s 0x6 0 a 0 0 0)
end

