-- ==== Sys2Proof/Laws/Operands.lean ====
section
/-! SUPPORT. What each operand form does: lengths of the strings, lanes of a buffer built from a sequence. -/

namespace Sys2Proof.Machine

@[simp] theorem lanes_length {w : Nat} (buf : BitVec w) (n : Nat) : (lanes buf n).length = n := by simp [lanes]

@[simp] theorem hexfix_length {w : Nat} (v : BitVec w) (n : Nat) : (hexfix v n).length = n := by simp [hexfix]

@[simp] theorem hexmin_length {w : Nat} (v : BitVec w) : (hexmin v).length = hexminDigits v := by simp [hexmin]

@[simp] theorem bigEndianBytes_length (v : U128) : (bigEndianBytes v).length = 16 := by
  simp [bigEndianBytes, Config.bytesOut]

/-- `lanesRead` is the length where it is within the limit. -/
theorem lanesRead_of_le {limit : Nat} {len : Byte} (h : len.toNat ≤ limit) : lanesRead limit len = len.toNat := by
  simp [lanesRead, h]

/-- `lanesRead` is 0 past the limit. -/
theorem lanesRead_of_lt {limit : Nat} {len : Byte} (h : limit < len.toNat) : lanesRead limit len = 0 := by
  simp [lanesRead, Nat.not_le.mpr h]

theorem lanesRead_le (limit : Nat) (len : Byte) : lanesRead limit len ≤ limit := by
  unfold lanesRead; split <;> omega

/-- Reading a lane of a sequence's buffer gives the element, or 0 past the sequence. -/
theorem lane_laneBuf (w : Nat) (l : List Byte) (i : Nat) (h : 8 * i + 8 ≤ w) :
    lane (laneBuf w l) i = l.getD i 0#8 := by
  induction l generalizing i with
  | nil => simp [lane, laneBuf]
  | cons c cs ih =>
    cases i with
    | zero =>
      ext k hk
      have hw : k < w := by omega
      simp [lane, laneBuf, hk, hw]
    | succ i =>
      have := ih i (by omega)
      rw [List.getD_cons_succ, ← this]
      ext k hk
      have h1 : 8 * (i + 1) + k < w := by omega
      have h2 : ¬ 8 * (i + 1) + k < 8 := by omega
      have h3 : 8 * (i + 1) + k - 8 = 8 * i + k := by omega
      have h4 : c.getLsbD (8 * (i + 1) + k) = false := BitVec.getLsbD_of_ge _ _ (by omega)
      have h5 : 8 * i + k < w := by omega
      simp [lane, laneBuf, h1, h2, h3, h4, h5]

/-- The lanes of a sequence's buffer, as many as it has elements, are the sequence. -/
theorem lanes_laneBuf (w : Nat) (l : List Byte) (h : 8 * l.length ≤ w) : lanes (laneBuf w l) l.length = l := by
  apply List.ext_getElem
  · simp
  · intro i h1 h2
    simp only [lanes, List.getElem_map, List.getElem_range]
    rw [lane_laneBuf _ _ _ (by omega)]
    simp [h2]

/-- The bits of a pair. -/
theorem pair_getLsbD (hi lo : Half) (k : Nat) :
    (pair hi lo).getLsbD k = if k < 64 then lo.getLsbD k else hi.getLsbD (k - 64) := by
  simp only [pair]
  exact BitVec.getLsbD_append

/-- The bits of the high half. -/
theorem high_getLsbD (v : U128) (k : Nat) (h : k < 64) : (high v).getLsbD k = v.getLsbD (64 + k) := by
  simp [high, h]

/-- The bits of the low half. -/
theorem low_getLsbD (v : U128) (k : Nat) (h : k < 64) : (low v).getLsbD k = v.getLsbD k := by
  simp [low, h]

/-- A value is its two halves. -/
@[simp] theorem pair_high_low (v : U128) : pair (high v) (low v) = v := by
  apply BitVec.eq_of_getLsbD_eq
  intro k hk
  rw [pair_getLsbD]
  split
  · rw [low_getLsbD _ _ (by omega)]
  · rw [high_getLsbD _ _ (by omega), Nat.add_sub_cancel' (by omega)]

@[simp] theorem high_pair (hi lo : Half) : high (pair hi lo) = hi := by
  apply BitVec.eq_of_getLsbD_eq
  intro k hk
  rw [high_getLsbD _ _ hk, pair_getLsbD, if_neg (by omega), Nat.add_sub_cancel_left]

@[simp] theorem low_pair (hi lo : Half) : low (pair hi lo) = lo := by
  apply BitVec.eq_of_getLsbD_eq
  intro k hk
  rw [low_getLsbD _ _ hk, pair_getLsbD, if_pos hk]

/-- The number of a pair is `hi * 2^64 + lo` (00_scope.md R7). -/
theorem pair_toNat (hi lo : Half) : (pair hi lo).toNat = hi.toNat * 2 ^ 64 + lo.toNat := by
  have h : (pair hi lo).toNat = hi.toNat <<< 64 ||| lo.toNat := BitVec.toNat_append hi lo
  rw [h, ← Nat.shiftLeft_add_eq_or_of_lt lo.isLt, Nat.shiftLeft_eq]

/-- The number of a value is `high * 2^64 + low` (00_scope.md R7). -/
theorem toNat_halves (v : U128) : v.toNat = (high v).toNat * 2 ^ 64 + (low v).toNat := by
  rw [← pair_toNat, pair_high_low]

/-! ## Lengths of the strings -/

/-- The digit count of `hexmin` is between 1 and the digits of the width (44_serialize.md R131, R135). -/
theorem hexminDigits_bounds {w : Nat} (v : BitVec w) : 1 ≤ hexminDigits v ∧ hexminDigits v ≤ max 1 ((w + 3) / 4) := by
  have : bitlength v ≤ w := by
    unfold bitlength
    split
    · omega
    · rename_i h
      have := (Nat.log2_lt h).2 v.isLt
      omega
  unfold hexminDigits
  omega

/-- The compact string has 1 to 32 characters (44_serialize.md R135). -/
theorem compactString_length (a : U128) : 1 ≤ (compactString a).length ∧ (compactString a).length ≤ 32 := by
  have h1 := hexminDigits_bounds (low a)
  have h2 := hexminDigits_bounds (high a)
  unfold compactString
  split <;> simp <;> omega

/-- The canonical string has 34 characters (44_serialize.md R136). -/
theorem canonString_length (a : U128) : (canonString a).length = 34 := by
  have := compactString_length a
  unfold canonString
  simp
  omega

/-! ## Digits -/

/-- `hexval` undoes `hexchar`, and `hexchar` gives a hex digit (40_construct.md R81; 44_serialize.md R130). -/
theorem hexval_hexchar : ∀ d : BitVec 4, hexval (hexchar d) = d ∧ ishex (hexchar d) = true := by decide

/-- The hex digits of a number, `n` of them. -/
def hexDigitsOf (v n : Nat) : List Byte :=
  (List.range n).map fun j => hexchar (BitVec.ofNat 4 (v >>> (4 * (n - 1 - j))))

/-- `hexfix` reads a bit vector as its number. -/
theorem hexfix_eq {w : Nat} (v : BitVec w) (n : Nat) : hexfix v n = hexDigitsOf v.toNat n := rfl

@[simp] theorem hexDigitsOf_length (v n : Nat) : (hexDigitsOf v n).length = n := by simp [hexDigitsOf]

/-- The digits of the upper part come before those of the lower part. -/
theorem hexDigitsOf_add (v m n : Nat) : hexDigitsOf v (m + n) = hexDigitsOf (v >>> (4 * n)) m ++ hexDigitsOf v n := by
  apply List.ext_getElem
  · simp
  · intro i h1 h2
    simp only [hexDigitsOf_length] at h1
    rw [List.getElem_append]
    split
    · rename_i h
      simp only [hexDigitsOf_length] at h
      simp only [hexDigitsOf, List.getElem_map, List.getElem_range]
      rw [← Nat.shiftRight_add]
      congr 3
      omega
    · rename_i h
      simp only [hexDigitsOf_length] at h
      simp only [hexDigitsOf, List.getElem_map, List.getElem_range, List.length_map, List.length_range]
      congr 3
      omega

/-- Reading the digits back gives the number modulo `16^n`. -/
theorem foldl_hexDigitsOf (v n : Nat) :
    (hexDigitsOf v n).foldl (fun acc ch => acc * 16 + (hexval ch).toNat) 0 = v % 16 ^ n := by
  induction n generalizing v with
  | zero => simp [hexDigitsOf, Nat.mod_one]
  | succ n ih =>
    have h1 : hexDigitsOf v 1 = [hexchar (BitVec.ofNat 4 v)] := by simp [hexDigitsOf]
    have h2 : (16 : Nat) ^ (n + 1) = 16 * 16 ^ n := by ring
    rw [hexDigitsOf_add, List.foldl_append, ih, h1]
    simp only [List.foldl_cons, List.foldl_nil, (hexval_hexchar _).1, BitVec.toNat_ofNat, Nat.shiftRight_eq_div_pow]
    rw [h2, Nat.mod_mul]
    norm_num
    ring

/-! ## The value loops over numbers -/

/-- A loop `v * m + f c` over 128 bits is the same loop over numbers, taken modulo 2^128. -/
theorem foldl_ofNat (f : Byte → U128) (m : Nat) (l : List Byte) (k : Nat) :
    l.foldl (fun v c => v * BitVec.ofNat 128 m + f c) (BitVec.ofNat 128 k) =
      BitVec.ofNat 128 (l.foldl (fun v c => v * m + (f c).toNat) k) := by
  induction l generalizing k with
  | nil => rfl
  | cons c cs ih =>
    simp only [List.foldl_cons]
    rw [← ih]
    congr 1
    apply BitVec.eq_of_toNat_eq
    simp [Nat.add_mod, Nat.mul_mod]

/-- The loop of FROM_HEX over numbers (40_construct.md R83). -/
theorem hexValue_eq (l : List Byte) :
    hexValue l = BitVec.ofNat 128 (l.foldl (fun v ch => v * 16 + (hexval ch).toNat) 0) := by
  unfold hexValue
  rw [foldl_ofNat (fun c => (hexval c).setWidth 128) 16 l 0]
  congr 2

/-- The loop of FROM_BYTES over numbers (40_construct.md R89). -/
theorem bytesValue_eq (l : List Byte) :
    bytesValue l = BitVec.ofNat 128 (l.foldl (fun v d => v * 256 + d.toNat) 0) := by
  unfold bytesValue
  rw [foldl_ofNat (fun c => c.setWidth 128) 256 l 0]
  congr 2

/-- A loop over digits below `m` stays below `m` to the number of digits (40_construct.md R83). -/
theorem foldl_lt (g : Byte → Nat) (m : Nat) (hg : ∀ c, g c < m) (l : List Byte) (k n : Nat) (hk : k < m ^ n) :
    l.foldl (fun v c => v * m + g c) k < m ^ (n + l.length) := by
  induction l generalizing k n with
  | nil => simpa
  | cons c cs ih =>
    rw [List.foldl_cons, List.length_cons, show n + (cs.length + 1) = (n + 1) + cs.length by omega]
    apply ih
    have := hg c
    rw [pow_succ]
    nlinarith

end Sys2Proof.Machine
end

