-- ==== Sys2Proof/Laws/Encoding.lean ====
section
/-! SUPPORT. The bits of the packed command word, and the bytes of a table word. -/

namespace Sys2Proof

/-- The bits of a packed command word, field by field (30_encoding.md R60). -/
theorem pack_getLsbD (c : Command) (k : Nat) :
    (pack c).getLsbD k =
      if k < 4 then c.op.getLsbD k
      else if k < 132 then c.a.getLsbD (k - 4)
      else if k < 260 then c.b.getLsbD (k - 132)
      else if k < 268 then c.len.getLsbD (k - 260)
      else c.buf.getLsbD (k - 268) := by
  have e1 : k - 4 - 128 = k - 132 := Nat.sub_sub ..
  have e2 : k - 132 - 128 = k - 260 := Nat.sub_sub ..
  have e3 : k - 260 - 8 = k - 268 := Nat.sub_sub ..
  have f1 : k - 4 < 128 ↔ k < 132 := by omega
  have f2 : k - 132 < 128 ↔ k < 260 := by omega
  have f3 : k - 260 < 8 ↔ k < 268 := by omega
  have h1 : (pack c).getLsbD k =
      if k < 4 then c.op.getLsbD k else (c.buf ++ c.len ++ c.b ++ c.a).getLsbD (k - 4) := BitVec.getLsbD_append
  rw [h1, BitVec.getLsbD_append, BitVec.getLsbD_append, BitVec.getLsbD_append]
  simp only [e1, e2, e3, f1, f2, f3]

/-- The fields of a command word as bit ranges (30_encoding.md R60). -/
theorem unpack_eq (cw : CmdWord) :
    unpack cw =
      { op := cw.extractLsb' 0 4, a := cw.extractLsb' 4 128, b := cw.extractLsb' 132 128
        len := cw.extractLsb' 260 8, buf := cw.extractLsb' 268 256 } := rfl

/-- A field of at most 524 bits of a number's low 524 bits is the field of the number. -/
theorem ofNat_shiftRight_mod (len start w : Nat) (h : start + len ≤ 524) :
    BitVec.ofNat len ((w % 2 ^ 524) >>> start) = BitVec.ofNat len (w >>> start) := by
  apply BitVec.eq_of_getLsbD_eq
  intro k hk
  have ht : (w % 2 ^ 524).testBit (start + k) = w.testBit (start + k) := by
    rw [Nat.testBit_mod_two_pow, decide_eq_true (show start + k < 524 by omega), Bool.true_and]
  rw [BitVec.getLsbD_ofNat, BitVec.getLsbD_ofNat, Nat.testBit_shiftRight, Nat.testBit_shiftRight, ht]

/-- The command of a number is the command of its command word. -/
theorem commandOfNat_eq_unpack (w : Nat) : commandOfNat w = unpack (BitVec.ofNat 524 w) := by
  have e : (BitVec.ofNat 524 w).toNat = w % 2 ^ 524 := BitVec.toNat_ofNat ..
  unfold unpack commandOfNat
  rw [e, Command.mk.injEq]
  refine ⟨?_, ?_, ?_, ?_, ?_⟩
  · exact (ofNat_shiftRight_mod 4 0 w (by omega)).symm
  · exact (ofNat_shiftRight_mod 128 4 w (by omega)).symm
  · exact (ofNat_shiftRight_mod 128 132 w (by omega)).symm
  · exact (ofNat_shiftRight_mod 8 260 w (by omega)).symm
  · exact (ofNat_shiftRight_mod 256 268 w (by omega)).symm

/-- A number and the bytes `bytesOfNat` lays it out in. -/
theorem natOfBytes_bytesOfNat (n w : Nat) : natOfBytes (bytesOfNat n w) = w % 256 ^ n := by
  induction n generalizing w with
  | zero => simp [bytesOfNat, natOfBytes, Nat.mod_one]
  | succ n ih =>
    have h : 256 ^ (n + 1) = 256 * 256 ^ n := by rw [Nat.pow_succ, Nat.mul_comm]
    have e : (BitVec.ofNat 8 w).toNat = w % 256 := BitVec.toNat_ofNat ..
    rw [bytesOfNat, natOfBytes, ih, e, h, Nat.mod_mul]

end Sys2Proof
end

