-- ==== Sys2Proof/Laws/State.lean ====
section
/-! SUPPORT. One lemma per field per update of the state, and one per field per form of response. -/

namespace Sys2Proof.Machine

/-! ## Fields after an update -/

@[simp] theorem State.accept_rspValid (op : OpBits) (r : Response) (s : State) : (s.accept op r).rspValid = true := rfl
@[simp] theorem State.accept_rspOp (op : OpBits) (r : Response) (s : State) : (s.accept op r).rspOp = op := rfl
@[simp] theorem State.accept_rspStatus (op : OpBits) (r : Response) (s : State) : (s.accept op r).rspStatus = r.status := rfl
@[simp] theorem State.accept_rspVal (op : OpBits) (r : Response) (s : State) : (s.accept op r).rspVal = r.val := rfl
@[simp] theorem State.accept_rspOrd (op : OpBits) (r : Response) (s : State) : (s.accept op r).rspOrd = r.ord := rfl
@[simp] theorem State.accept_rspLen (op : OpBits) (r : Response) (s : State) : (s.accept op r).rspLen = r.len := rfl
@[simp] theorem State.accept_rspBuf (op : OpBits) (r : Response) (s : State) : (s.accept op r).rspBuf = r.buf := rfl
@[simp] theorem State.accept_inputs (op : OpBits) (r : Response) (s : State) : (s.accept op r).inputs = s.inputs := rfl

@[simp] theorem State.resetRegs_rspValid (s : State) : s.resetRegs.rspValid = false := rfl
@[simp] theorem State.resetRegs_rspOp (s : State) : s.resetRegs.rspOp = 0 := rfl
@[simp] theorem State.resetRegs_rspStatus (s : State) : s.resetRegs.rspStatus = 0 := rfl
@[simp] theorem State.resetRegs_rspVal (s : State) : s.resetRegs.rspVal = 0 := rfl
@[simp] theorem State.resetRegs_rspOrd (s : State) : s.resetRegs.rspOrd = 0 := rfl
@[simp] theorem State.resetRegs_rspLen (s : State) : s.resetRegs.rspLen = 0 := rfl
@[simp] theorem State.resetRegs_rspBuf (s : State) : s.resetRegs.rspBuf = 0 := rfl
@[simp] theorem State.resetRegs_inputs (s : State) : s.resetRegs.inputs = s.inputs := rfl

@[simp] theorem State.clearValid_rspValid (s : State) : s.clearValid.rspValid = false := rfl
@[simp] theorem State.clearValid_rspOp (s : State) : s.clearValid.rspOp = s.rspOp := rfl
@[simp] theorem State.clearValid_rspStatus (s : State) : s.clearValid.rspStatus = s.rspStatus := rfl
@[simp] theorem State.clearValid_rspVal (s : State) : s.clearValid.rspVal = s.rspVal := rfl
@[simp] theorem State.clearValid_rspOrd (s : State) : s.clearValid.rspOrd = s.rspOrd := rfl
@[simp] theorem State.clearValid_rspLen (s : State) : s.clearValid.rspLen = s.rspLen := rfl
@[simp] theorem State.clearValid_rspBuf (s : State) : s.clearValid.rspBuf = s.rspBuf := rfl
@[simp] theorem State.clearValid_inputs (s : State) : s.clearValid.inputs = s.inputs := rfl

@[simp] theorem State.present_inputs (c : Command) (s : State) :
    (s.present c).inputs = presented c :: s.inputs.tail := rfl
@[simp] theorem State.present_outputs (c : Command) (s : State) : (s.present c).outputs = s.outputs := rfl
@[simp] theorem State.load_inputs (cs : List Command) (s : State) : (s.load cs).inputs = cs.map presented := rfl
@[simp] theorem State.load_outputs (cs : List Command) (s : State) : (s.load cs).outputs = s.outputs := rfl

/-! ## Fields of a response -/

@[simp] theorem Response.value_status (v : U128) : (Response.value v).status = 0 := rfl
@[simp] theorem Response.value_val (v : U128) : (Response.value v).val = v := rfl
@[simp] theorem Response.value_ord (v : U128) : (Response.value v).ord = 0 := rfl
@[simp] theorem Response.value_len (v : U128) : (Response.value v).len = 0 := rfl
@[simp] theorem Response.value_buf (v : U128) : (Response.value v).buf = 0 := rfl

@[simp] theorem Response.order_status (o : Ordering) : (Response.order o).status = 0 := rfl
@[simp] theorem Response.order_val (o : Ordering) : (Response.order o).val = 0 := rfl
@[simp] theorem Response.order_ord (o : Ordering) : (Response.order o).ord = ordCode o := rfl
@[simp] theorem Response.order_len (o : Ordering) : (Response.order o).len = 0 := rfl
@[simp] theorem Response.order_buf (o : Ordering) : (Response.order o).buf = 0 := rfl

@[simp] theorem Response.output_status (l : List Byte) : (Response.output l).status = 0 := rfl
@[simp] theorem Response.output_val (l : List Byte) : (Response.output l).val = 0 := rfl
@[simp] theorem Response.output_ord (l : List Byte) : (Response.output l).ord = 0 := rfl
@[simp] theorem Response.output_len (l : List Byte) : (Response.output l).len = BitVec.ofNat 6 l.length := rfl
@[simp] theorem Response.output_buf (l : List Byte) : (Response.output l).buf = laneBuf 272 l := rfl

@[simp] theorem Response.fail_status (st : Status) : (Response.fail st).status = st.code := rfl
@[simp] theorem Response.fail_val (st : Status) : (Response.fail st).val = 0 := rfl
@[simp] theorem Response.fail_ord (st : Status) : (Response.fail st).ord = 0 := rfl
@[simp] theorem Response.fail_len (st : Status) : (Response.fail st).len = 0 := rfl
@[simp] theorem Response.fail_buf (st : Status) : (Response.fail st).buf = 0 := rfl

end Sys2Proof.Machine
end

