-- ==== Sys2Proof/Laws/Exec.lean ====
section
/-! SUPPORT. Everything a command and a step can do, said once. -/

namespace Sys2Proof.Machine

/-- Every instruction is the accepting edge with its opcode and its response (10_state.md R29, R30). -/
theorem exec_eq_accept (i : Instr) (s : State) : exec i s = .next (s.accept i.opcode (responseOf i)) := by
  cases i <;> rfl

/-- The sixteen opcodes (30_encoding.md R62). -/
theorem opcode_cases (op : OpBits) :
    op = 0x0#4 ∨ op = 0x1#4 ∨ op = 0x2#4 ∨ op = 0x3#4 ∨ op = 0x4#4 ∨ op = 0x5#4 ∨ op = 0x6#4 ∨ op = 0x7#4 ∨
    op = 0x8#4 ∨ op = 0x9#4 ∨ op = 0xA#4 ∨ op = 0xB#4 ∨ op = 0xC#4 ∨ op = 0xD#4 ∨ op = 0xE#4 ∨ op = 0xF#4 := by
  revert op; decide

/-- The opcode of a decoded command is the command's (30_encoding.md R61). -/
theorem decode_opcode (c : Command) : (decode c).opcode = c.op := by
  rcases opcode_cases c.op with h | h | h | h | h | h | h | h | h | h | h | h | h | h | h | h <;>
    simp [decode, h, Instr.opcode]

/-- A decoded command writes its own opcode and `Exec` of it. -/
theorem exec_decode (c : Command) (s : State) :
    exec (decode c) s = .next (s.accept c.op (execResponse c)) := by
  rw [exec_eq_accept, decode_opcode]; rfl

/-- The lanes of an output response (10_state.md R26, R28). -/
theorem output_lane (l : List Byte) (i : Nat) (h : i < 34) : lane (Response.output l).buf i = l.getD i 0#8 :=
  lane_laneBuf 272 l i (by omega)

/-- FROM_HEX on what the decoder reads (10_state.md R25). -/
theorem decode_fromHex (c : Command) (h : c.op = 0x2#4) :
    decode c = .fromHex c.len (lanes c.buf (lanesRead Config.hexMaxChars c.len)) := by simp [decode, h]

/-- FROM_BYTES on what the decoder reads (10_state.md R25). -/
theorem decode_fromBytes (c : Command) (h : c.op = 0x3#4) :
    decode c = .fromBytes c.len (lanes c.buf (lanesRead Config.bytesMax c.len)) := by simp [decode, h]

/-- With no input left the step keeps the state. -/
theorem step_no_input {s : State} (h : s.inputs = []) : step s = .next s := by
  simp [step, fetch, h]

/-- The step at a sample without a rising edge. -/
theorem step_hold {s : State} {p : PortInput} {rest : List PortInput} (h : s.inputs = p :: rest)
    (hr : p.rise = false) : step s = .next { s with inputs := rest } := by
  simp [step, fetch, sampleAction, h, hr]

/-- The step at a reset edge. -/
theorem step_reset {s : State} {p : PortInput} {rest : List PortInput} (h : s.inputs = p :: rest)
    (hr : p.rise = true) (hs : p.rst = true) : step s = .next { s with inputs := rest }.resetRegs := by
  simp [step, fetch, sampleAction, h, hr, hs]

/-- The step at an idle edge. -/
theorem step_idle {s : State} {p : PortInput} {rest : List PortInput} (h : s.inputs = p :: rest)
    (hr : p.rise = true) (hs : p.rst = false) (hv : p.cmdValid = false) :
    step s = .next { s with inputs := rest }.clearValid := by
  simp [step, fetch, sampleAction, h, hr, hs, hv]

/-- The step at an edge that accepts a command. -/
theorem step_accept {s : State} {p : PortInput} {rest : List PortInput} (h : s.inputs = p :: rest)
    (hr : p.rise = true) (hs : p.rst = false) (hv : p.cmdValid = true) :
    step s = exec (decode p.cmd) { s with inputs := rest } := by
  simp [step, fetch, sampleAction, h, hr, hs, hv]

/-- Everything a step can do: keep the state, pass a sample without an edge, reset, idle, or accept a command. -/
theorem step_cases {s t : State} (h : step s = .next t) :
    (s.inputs = [] ∧ t = s) ∨
    ∃ p rest, s.inputs = p :: rest ∧
      ((p.rise = false ∧ t = { s with inputs := rest }) ∨
       (p.rise = true ∧ p.rst = true ∧ t = { s with inputs := rest }.resetRegs) ∨
       (p.rise = true ∧ p.rst = false ∧ p.cmdValid = false ∧ t = { s with inputs := rest }.clearValid) ∨
       (p.rise = true ∧ p.rst = false ∧ p.cmdValid = true ∧
         t = { s with inputs := rest }.accept p.cmd.op (execResponse p.cmd))) := by
  rcases hi : s.inputs with _ | ⟨p, rest⟩
  · rw [step_no_input hi, Host.Outcome.next.injEq] at h
    exact .inl ⟨rfl, h.symm⟩
  · refine .inr ⟨p, rest, rfl, ?_⟩
    cases hr : p.rise with
    | false =>
      rw [step_hold hi hr, Host.Outcome.next.injEq] at h
      exact .inl ⟨rfl, h.symm⟩
    | true =>
      cases hs : p.rst with
      | true =>
        rw [step_reset hi hr hs, Host.Outcome.next.injEq] at h
        exact .inr (.inl ⟨rfl, rfl, h.symm⟩)
      | false =>
        cases hv : p.cmdValid with
        | false =>
          rw [step_idle hi hr hs hv, Host.Outcome.next.injEq] at h
          exact .inr (.inr (.inl ⟨rfl, rfl, rfl, h.symm⟩))
        | true =>
          rw [step_accept hi hr hs hv, exec_decode, Host.Outcome.next.injEq] at h
          exact .inr (.inr (.inr ⟨rfl, rfl, rfl, h.symm⟩))

end Sys2Proof.Machine
end

