-- ==== Sys2Proof/Laws/PerInstr.lean ====
section
/-! SUPPORT. For every constructor: the encoded command word carries the instruction's opcode in its low four
bits (30_encoding.md R60, R61). -/

namespace Sys2Proof.Laws.EncodedOpcode

/-- The opcode field of the encoded command word is the instruction's opcode. -/
def Statement (i : Instr) : Prop := (encode i).extractLsb' 0 4 = i.opcode

/-- The opcode field of a packed command (30_encoding.md R60). -/
theorem pack_op (c : Command) : (pack c).extractLsb' 0 4 = c.op := by
  apply BitVec.eq_of_getLsbD_eq
  intro k hk
  have h : (pack c).getLsbD k = if k < 4 then c.op.getLsbD k else (c.buf ++ c.len ++ c.b ++ c.a).getLsbD (k - 4) :=
    BitVec.getLsbD_append
  simp [h, hk]

theorem reserved0 : Statement .reserved0 := pack_op _
theorem fromU64 (u : Half) : Statement (.fromU64 u) := pack_op _
theorem fromHex (len : Byte) (chars : List Byte) : Statement (.fromHex len chars) := pack_op _
theorem fromBytes (len : Byte) (bytes : List Byte) : Statement (.fromBytes len bytes) := pack_op _
theorem cmp (a b : U128) : Statement (.cmp a b) := pack_op _
theorem and (a b : U128) : Statement (.and a b) := pack_op _
theorem or (a b : U128) : Statement (.or a b) := pack_op _
theorem xor (a b : U128) : Statement (.xor a b) := pack_op _
theorem add (a b : U128) : Statement (.add a b) := pack_op _
theorem sub (a b : U128) : Statement (.sub a b) := pack_op _
theorem toBytes (a : U128) : Statement (.toBytes a) := pack_op _
theorem toHexCompact (a : U128) : Statement (.toHexCompact a) := pack_op _
theorem toHexCanon (a : U128) : Statement (.toHexCanon a) := pack_op _
theorem reservedD : Statement .reservedD := pack_op _
theorem reservedE : Statement .reservedE := pack_op _
theorem reservedF : Statement .reservedF := pack_op _

end Sys2Proof.Laws.EncodedOpcode
end

