-- ==== Sys2Proof/Tests/Slice0.lean ====
section
/-! SUPPORT. The model's own tests. Expected results are those of 95_test_vectors.md or of the rule cited. -/

namespace Sys2Proof.Tests

open Sys2Proof.Machine Sys2Proof.Statements

/-! ## WellFormed -/

/-- A sequence shorter than its length field. -/
theorem test_wf_refuses_missing_char : (Instr.fromHex 3 [0x30]).wf = false := by decide

/-- No lane is read when the length is over the limit (10_state.md R25). -/
theorem test_wf_refuses_chars_past_limit : (Instr.fromHex 33 [0x30]).wf = false := by decide

theorem test_wf_refuses_missing_byte : (Instr.fromBytes 2 [0x30]).wf = false := by decide

theorem test_wf_refuses_bytes_past_limit : (Instr.fromBytes 17 [0x30]).wf = false := by decide

theorem test_wf_accepts : (Instr.fromHex 1 [0x30]).wf = true ∧ (Instr.fromHex 33 []).wf = true ∧
    (Instr.fromBytes 1 [0x30]).wf = true ∧ (Instr.fromBytes 17 []).wf = true ∧ (Instr.add 1 2).wf = true := by decide

/-! ## Decoding of command words -/

/-- R61, R153: op = 0x0, all other bits 0. -/
theorem test_decode_reserved0 :
    decode (commandOfNat 0x00000000000000000000000000000000000000000000000000000000000000000000000000000000000000000000000000000000000000000000000000000000000)
      = .reserved0 := by decide

/-- 95 P4 edge 1. -/
theorem test_decode_fromU64 :
    decode (commandOfNat 0x000000000000000000000000000000000000000000000000000000000000000000000000000000000000000000000000000000000000000000fffffffffffffffe1)
      = .fromU64 0xFFFFFFFFFFFFFFFE := by decide

/-- 95 P3 edge 7. -/
theorem test_decode_fromHex :
    decode (commandOfNat 0x00000000000000000000000000000000000000000000000000000000323178300400000000000000000000000000000000000000000000000000000000000000002)
      = .fromHex 4 [0x30, 0x78, 0x31, 0x32] := by decide

/-- 95 P2 edge 5. -/
theorem test_decode_fromBytes :
    decode (commandOfNat 0x00000000000000000000000000000000000000000000000000000000000002010200000000000000000000000000000000000000000000000000000000000000003)
      = .fromBytes 2 [0x01, 0x02] := by decide

/-- 95 P3 edge 4. -/
theorem test_decode_cmp :
    decode (commandOfNat 0x00000000000000000000000000000000000000000000000000000000000000000000000000000000000000000000000002000000000000000000000000000000034)
      = .cmp 3 2 := by decide

/-- R60: a = CW[131:4], b = CW[259:132], op 0x5 of R61. -/
theorem test_decode_and :
    decode (commandOfNat 0x000000000000000000000000000000000000000000000000000000000000000000000000000000003c000000000000000f00000000000000f000000000000000ff5)
      = .and (pair 0xF0 0xFF) (pair 0x3C 0x0F) := by decide

/-- 95 P3 edge 3. -/
theorem test_decode_or :
    decode (commandOfNat 0x00000000000000000000000000000000000000000000000000000000000000000000000000000000000000000000000001000000000000000000000000000000026)
      = .or 2 1 := by decide

/-- 95 P3 edge 5. -/
theorem test_decode_xor :
    decode (commandOfNat 0x00000000000000000000000000000000000000000000000000000000000000000000000000000000000000000000000003000000000000000000000000000000037)
      = .xor 3 3 := by decide

/-- 95 P1 edge 2. -/
theorem test_decode_add :
    decode (commandOfNat 0x00000000000000000000000000000000000000000000000000000000000000000000000000000000000000000000000001ffffffffffffffffffffffffffffffff8)
      = .add (pair 0xFFFFFFFFFFFFFFFF 0xFFFFFFFFFFFFFFFF) 1 := by decide

/-- 95 P4 edge 4. -/
theorem test_decode_sub :
    decode (commandOfNat 0x00000000000000000000000000000000000000000000000000000000000000000000000000000000000000000000000001000000000000000100000000000000009)
      = .sub (pair 1 0) 1 := by decide

/-- 95 P2 edge 2. -/
theorem test_decode_toBytes :
    decode (commandOfNat 0x0000000000000000000000000000000000000000000000000000000000000000000000000000000000000000000000000000010203040506070809101112131415a)
      = .toBytes (pair 0x0001020304050607 0x0809101112131415) := by decide

/-- 95 P2 edge 3. -/
theorem test_decode_toHexCompact :
    decode (commandOfNat 0x0000000000000000000000000000000000000000000000000000000000000000000000000000000000000000000000000000010203040506070809101112131415b)
      = .toHexCompact (pair 0x0001020304050607 0x0809101112131415) := by decide

/-- 95 P1 edge 5. -/
theorem test_decode_toHexCanon :
    decode (commandOfNat 0x00000000000000000000000000000000000000000000000000000000000000000000000000000000000000000000000000ffffffffffffffffffffffffffffffffc)
      = .toHexCanon (pair 0xFFFFFFFFFFFFFFFF 0xFFFFFFFFFFFFFFFF) := by decide

/-- R61: op = 0xD. -/
theorem test_decode_reservedD :
    decode (commandOfNat 0x0000000000000000000000000000000000000000000000000000000000000000000000000000000000000000000000000000000000000000000000000000000000d)
      = .reservedD := by decide

/-- R61: op = 0xE. -/
theorem test_decode_reservedE :
    decode (commandOfNat 0x0000000000000000000000000000000000000000000000000000000000000000000000000000000000000000000000000000000000000000000000000000000000e)
      = .reservedE := by decide

/-- 95 P3 edge 9. -/
theorem test_decode_reservedF :
    decode (commandOfNat 0x0000000000000000000000000000000000000000000000000000000000000000000000000000000000000000000000000000000000000000000000000000000000f)
      = .reservedF := by decide

/-- A bit above CW[523] is no command word (30_encoding.md R60). -/
theorem test_decode_rejects_beyond_word :
    decodeBytes (List.replicate 65 0 ++ [0x10]) = .error .beyondCommandWord := by decide

/-- The low byte of a table word is `op` and the low four bits of `a` (30_encoding.md R60). -/
theorem test_decode_table_word : decodeTableWord 8 0x51 = some (.fromU64 5) := by decide

/-- The mnemonic of each row stands beside its code (30_encoding.md R61). -/
theorem test_table_mnemonics :
    (opcodeTable.map fun r => (r.mnemonic, r.code)).lookup "TO_HEX_CANON" = some 0xC#4 ∧
    (opcodeTable.map fun r => (r.mnemonic, r.code)).lookup "CMP" = some 0x4#4 := by decide

/-! ## Results: what the outputs and the output sequence are after one command on the reset state -/

/-- The state a command leaves, from reset. -/
def after (i : Instr) : Option State :=
  match exec i State.reset with
  | .next t    => some t
  | .fault _   => none
  | .refused _ => none

/-- Status, value and ordering after a command. -/
def result (i : Instr) : Option (BitVec 3 × U128 × BitVec 2) := (after i).map fun t => (t.rspStatus, t.rspVal, t.rspOrd)

/-- Length and output sequence after a command. -/
def outSeq (i : Instr) : Option (BitVec 6 × List Byte) := (after i).map fun t => (t.rspLen, t.outputSeq)

/-- 95 V11. -/
theorem test_reserved0 : result .reserved0 = some (4, 0, 0) := by decide

/-- 95 V11, with RSP_OP (60_exceptions.md R153). -/
theorem test_reservedD : (after .reservedD).map (fun t => (t.rspOp, t.rspStatus)) = some (0xD, 4) := by decide

/-- 95 V11. -/
theorem test_reservedE : (after .reservedE).map (fun t => (t.rspOp, t.rspStatus)) = some (0xE, 4) := by decide

/-- 95 P3 edge 9. -/
theorem test_reservedF : (after .reservedF).map (fun t => (t.rspOp, t.rspStatus)) = some (0xF, 4) := by decide

/-- 95 V1: 2^64 - 1, not MaxUint128. -/
theorem test_fromU64 : result (.fromU64 0xFFFFFFFFFFFFFFFF) = some (0, 0xFFFFFFFFFFFFFFFF, 0) := by decide

/-- 95 V2: 32 digits, both halves. -/
theorem test_fromHex_value :
    result (.fromHex 32 (ascii "123456789aBcdef0fedcba9876543210"))
      = some (0, pair 0x123456789ABCDEF0 0xFEDCBA9876543210, 0) := by decide +kernel

/-- 95 V2: status 2 for `x`; the length before the characters, status 1. -/
theorem test_fromHex_errors :
    result (.fromHex 4 (ascii "0x12")) = some (2, 0, 0) ∧ result (.fromHex 33 []) = some (1, 0, 0) := by decide

/-- 95 V3: nine bytes, the first in the high half. -/
theorem test_fromBytes_value :
    result (.fromBytes 9 [0x01, 0, 0, 0, 0, 0, 0, 0, 0x02]) = some (0, pair 1 2, 0) := by decide

/-- 95 S13. -/
theorem test_fromBytes_too_long : result (.fromBytes 17 []) = some (3, 0, 0) := by decide

/-- 95 V4: the high half decides, no value is negative. -/
theorem test_cmp :
    result (.cmp (pair 1 0) 0xFFFFFFFFFFFFFFFF) = some (0, 0, 0b01) ∧ result (.cmp 0 1) = some (0, 0, 0b11) := by
  decide

/-- 95 V5. -/
theorem test_and :
    result (.and (pair 0xF0F0F0F0F0F0F0F0 0xFF00FF00FF00FF) (pair 0xFF00FF00FF00FF00 0xF0F0F0F0F0F0F0F))
      = some (0, pair 0xF000F000F000F000 0xF000F000F000F, 0) := by decide

/-- 95 V5: only `b.low` set, the defect would give 0. -/
theorem test_or : result (.or 0 0x8000000000000000) = some (0, 0x8000000000000000, 0) := by decide

/-- 95 V5. -/
theorem test_xor :
    result (.xor (pair 0xF0F0F0F0F0F0F0F0 0xFF00FF00FF00FF) (pair 0xFF00FF00FF00FF00 0xF0F0F0F0F0F0F0F))
      = some (0, pair 0xFF00FF00FF00FF0 0xFF00FF00FF00FF0, 0) := by decide

/-- 95 V6: carry into high; both halves wrap. -/
theorem test_add :
    result (.add 0xFFFFFFFFFFFFFFFF 1) = some (0, pair 1 0, 0) ∧
    result (.add (pair 0xFFFFFFFFFFFFFFFF 0xFFFFFFFFFFFFFFFF) (pair 0xFFFFFFFFFFFFFFFF 0xFFFFFFFFFFFFFFFF))
      = some (0, pair 0xFFFFFFFFFFFFFFFF 0xFFFFFFFFFFFFFFFE, 0) := by decide

/-- 95 V7: borrow with a non-zero high half; the wrap to MaxUint128. -/
theorem test_sub :
    result (.sub (pair 5 3) (pair 2 7)) = some (0, pair 2 0xFFFFFFFFFFFFFFFC, 0) ∧
    result (.sub 0 1) = some (0, pair 0xFFFFFFFFFFFFFFFF 0xFFFFFFFFFFFFFFFF, 0) := by decide

/-- 95 S10. -/
theorem test_toBytes :
    outSeq (.toBytes (pair 0x0001020304050607 0x0809101112131415))
      = some (16, [0x00, 0x01, 0x02, 0x03, 0x04, 0x05, 0x06, 0x07, 0x08, 0x09, 0x10, 0x11, 0x12, 0x13, 0x14, 0x15]) := by
  decide

/-- 95 V9: 0 has one character; the low half keeps its zeros. -/
theorem test_toHexCompact :
    outSeq (.toHexCompact 0) = some (1, ascii "0") ∧
    outSeq (.toHexCompact (pair 0xABC 1)) = some (19, ascii "abc0000000000000001") := by decide

/-- 44_serialize.md R138. -/
theorem test_toHexCanon :
    outSeq (.toHexCanon (pair 0xABC 1)) = some (34, ascii "0x0000000000000abc0000000000000001") := by decide +kernel

/-! ## Steps -/

/-- The outputs after one step of a state with one input sample. -/
def stepOutputs (s : State) (p : PortInput) : Option Outputs :=
  match step { s with inputs := [p] } with
  | .next t    => some t.outputs
  | .fault _   => none
  | .refused _ => none

/-- A response in the registers: value 3 after an OR. -/
def held : State := { State.reset with rspValid := true, rspOp := 6, rspVal := 3 }

/-- 95 P3 edge 10: a command presented at a reset edge is ignored. -/
theorem test_step_reset_ignores_command :
    stepOutputs held { rise := true, rst := true, cmdValid := true, cmd := ⟨8, 1, 1, 0, 0⟩ } = some State.reset.outputs := by
  decide

/-- 95 P1 edge 3: an idle edge clears RSP_VALID alone. -/
theorem test_step_idle : stepOutputs held idleEdge = some { held.outputs with rspValid := false } := by decide

/-- 10_state.md R30: no edge, no change, whatever the ports hold. -/
theorem test_step_no_edge :
    stepOutputs held { rise := false, rst := true, cmdValid := true, cmd := ⟨8, 1, 1, 0, 0⟩ } = some held.outputs := by
  decide

/-- 95 V1: `b`, `len` and `buf` are ignored by FROM_U64. -/
theorem test_step_accept_ignores_unread :
    stepOutputs held (presented ⟨1, pair 1 2, 7, 200, laneBuf 256 (ascii "zz")⟩)
      = some { State.reset.outputs with rspValid := true, rspOp := 1, rspVal := 2 } := by decide

/-- The host's placement runs the word as the first command: op 0x1, `a = 5`. -/
theorem test_step_fetch_word :
    step (State.reset.withFetchWord 8 0x51)
      = .next { State.reset with rspValid := true, rspOp := 1, rspVal := 5 } := rfl

/-! ## Assembly text -/

/-- The command of a line of text. -/
def commandOf (text : String) : Option Command :=
  match parseLine (ascii text) with
  | .ok (some x) => some (assemble x)
  | .ok none     => none
  | .error _     => none

/-- 95 P3 edge 7. -/
theorem test_asm_fromHex :
    commandOf "FROM_HEX \"0x12\""
      = some (commandOfNat 0x00000000000000000000000000000000000000000000000000000000323178300400000000000000000000000000000000000000000000000000000000000000002) := by decide

/-- 95 P2 edge 5. -/
theorem test_asm_fromBytes :
    commandOf "FROM_BYTES [0x01, 0x02]"
      = some (commandOfNat 0x00000000000000000000000000000000000000000000000000000000000002010200000000000000000000000000000000000000000000000000000000000000003) := by decide

/-- 95 P4 edge 1. -/
theorem test_asm_fromU64 :
    commandOf "FROM_U64 0xFFFFFFFFFFFFFFFE"
      = some (commandOfNat 0x000000000000000000000000000000000000000000000000000000000000000000000000000000000000000000000000000000000000000000fffffffffffffffe1) := by decide

/-- 95 P3 edge 3. -/
theorem test_asm_or :
    commandOf "OR 0x2, 0x1 ; the OR"
      = some (commandOfNat 0x00000000000000000000000000000000000000000000000000000000000000000000000000000000000000000000000001000000000000000000000000000000026) := by decide

/-- 95 P4 edge 2, a pseudo-command of 30_encoding.md R69. -/
theorem test_asm_inc :
    commandOf "INC 0xFFFFFFFFFFFFFFFE"
      = some (commandOfNat 0x000000000000000000000000000000000000000000000000000000000000000000000000000000000000000000000000010000000000000000fffffffffffffffe8) := by decide

/-- 95 V1 and R68: a raw command with a byte list and a string would differ only in its lanes. -/
theorem test_asm_raw :
    commandOf ".cmd op=0x3, len=2, buf=[0xAA, 0xBB, 0xCC]" = some ⟨3, 0, 0, 2, 0xCCBBAA⟩ ∧
    commandOf ".cmd op=0xF, len=3, buf=\"abc\"" = some ⟨0xF, 0, 0, 3, 0x636261⟩ := by decide

/-- Two halves in curly brackets are one operand (30_encoding.md R68); the bytes are those of the text
`DEC (0x1, 0x0)` with curly brackets. -/
theorem test_asm_pair :
    parseLine (ascii "DEC " ++ [0x7B] ++ ascii "0x1, 0x0" ++ [0x7D]) = .ok (some (.dec (pair 1 0))) := by decide

/-- A line that is a comment holds no command; a wrong line is rejected. -/
theorem test_asm_other_lines :
    parseLine (ascii "  ; note") = .ok none ∧ parseLine (ascii "ADD 0x1") = .error .notALine ∧
    parseLine (ascii "FROM_U64 0x10000000000000000") = .error .notALine := by decide

/-! ## Witnesses: each statement with hypotheses has inputs that meet them -/

/-- A state whose next sample is `p`. -/
def facing (p : PortInput) : State := { State.reset with inputs := [p] }

theorem witness_ClockStepFollowsItsRule :
    (∃ (s : State) (p : PortInput) (rest : List PortInput), s.inputs = p :: rest ∧ p.rise = false) ∧
    (∃ (s : State) (p : PortInput) (rest : List PortInput), s.inputs = p :: rest ∧ p.rise = true ∧ p.rst = true) ∧
    (∃ (s : State) (p : PortInput) (rest : List PortInput),
      s.inputs = p :: rest ∧ p.rise = true ∧ p.rst = false ∧ p.cmdValid = true) ∧
    (∃ (s : State) (p : PortInput) (rest : List PortInput),
      s.inputs = p :: rest ∧ p.rise = true ∧ p.rst = false ∧ p.cmdValid = false) :=
  ⟨⟨facing { idleEdge with rise := false }, _, _, rfl, rfl⟩, ⟨facing resetEdge, _, _, rfl, rfl, rfl⟩,
    ⟨facing (presented ⟨8, 1, 1, 0, 0⟩), _, _, rfl, rfl, rfl, rfl⟩, ⟨facing idleEdge, _, _, rfl, rfl, rfl, rfl⟩⟩

theorem witness_AcceptedCommandRunsItsInstruction :
    ∃ (s : State) (p : PortInput) (rest : List PortInput) (cw : CmdWord), s.inputs = p :: rest ∧ p.rise = true ∧
      p.rst = false ∧ p.cmdValid = true ∧ p.cmd = unpack cw :=
  ⟨facing (presented (unpack 0x18#524)), _, _, 0x18#524, rfl, rfl, rfl, rfl, rfl⟩

/-- At the bound and below it. -/
theorem witness_TableWordDecodesAsItsCommandWord : 8 ≤ 524 ∧ 524 ≤ 524 := by decide

theorem witness_StoppedClockKeepsTheState : State.reset.inputs = [] := rfl

/-- Commands that differ only in fields the operation does not read, one pair for each row of the table of
10_state.md R25, at the limits of the lengths. -/
theorem witness_UnreadFieldsAndHistoryHaveNoEffect :
    SameReads ⟨1, pair 1 2, 3, 4, 5⟩ ⟨1, pair 9 2, 8, 7, 6⟩ ∧
    SameReads ⟨2, 1, 2, 2, 0x7A3231⟩ ⟨2, 3, 4, 2, 0x3231⟩ ∧
    SameReads ⟨2, 0, 0, 33, 0x31⟩ ⟨2, 0, 0, 33, 0x32⟩ ∧
    SameReads ⟨3, 1, 2, 16, BitVec.ofNat 256 (2 ^ 128 + 5)⟩ ⟨3, 3, 4, 16, 5⟩ ∧
    SameReads ⟨3, 0, 0, 17, 0x31⟩ ⟨3, 0, 0, 17, 0x32⟩ ∧
    SameReads ⟨8, 1, 2, 3, 4⟩ ⟨8, 1, 2, 5, 6⟩ ∧
    SameReads ⟨0xC, 1, 2, 3, 4⟩ ⟨0xC, 1, 7, 8, 9⟩ ∧
    SameReads ⟨0xF, 1, 2, 3, 4⟩ ⟨0xF, 5, 6, 7, 8⟩ ∧
    (∃ (c : Command) (s : State) (r : List PortInput),
      s.inputs = { rise := true, rst := false, cmdValid := true, cmd := c } :: r) := by
  refine ⟨?_, ?_, ?_, ?_, ?_, ?_, ?_, ?_, ⟨⟨8, 1, 2, 3, 4⟩, facing (presented ⟨8, 1, 2, 3, 4⟩), [], rfl⟩⟩ <;>
    decide

theorem witness_StepKeepsResponseInvariant :
    ∃ s t : State, s.Inv ∧ step s = .next t ∧ t.rspOp = 0x8#4 :=
  ⟨facing (presented ⟨8, 1, 2, 3, 4⟩), _, by decide, rfl, rfl⟩

/-- Both constructors that can be ill formed, at their limits and past them, and one of the others. -/
theorem witness_DecodeOfEncodeIsTheInstruction :
    (Instr.fromHex 32 (List.replicate 32 0x66)).WellFormed ∧ (Instr.fromHex 255 []).WellFormed ∧
    (Instr.fromBytes 16 (List.replicate 16 0xFF)).WellFormed ∧ (Instr.fromBytes 0 []).WellFormed ∧
    (Instr.sub 0 1).WellFormed := by decide

theorem witness_OpcodeAloneSelectsTheOperation : ∀ op : OpBits, ∃ c : Command, c.op = op :=
  fun op => ⟨⟨op, 0, 0, 0, 0⟩, rfl⟩

theorem witness_ReservedOpcodesAnswerIllegalOp :
    ∃ c : Command, c.op ∈ [0x0#4, 0xD#4, 0xE#4, 0xF#4] ∧ c.a = 5 := ⟨⟨0xD, 5, 6, 0, 0⟩, by decide, rfl⟩

/-- The premises on the opcode and on the status are met by commands that succeed and by commands that fail. -/
theorem witness_UnproducedFieldsAreWrittenZero :
    (after (.cmp 3 2)).map (fun t => (t.rspOp, t.rspLen)) = some (0x4, 0) ∧
    (after (.fromHex 33 [])).map (fun t => t.rspStatus) = some 1 := by decide

theorem witness_FromU64ZeroExtendsItsOperand : ∃ c : Command, c.op = 0x1#4 := ⟨⟨1, 0, 0, 0, 0⟩, rfl⟩

theorem witness_HexDigitAlphabetAndValues :
    ∃ c d e : Byte, (0x30 ≤ c.toNat ∧ c.toNat ≤ 0x39) ∧ (0x41 ≤ d.toNat ∧ d.toNat ≤ 0x46) ∧
      (0x61 ≤ e.toNat ∧ e.toNat ≤ 0x66) := ⟨0x39, 0x41, 0x66, by decide, by decide, by decide⟩

/-- Length 33, length 32 with a bad character, length 32 and length 0 without one. -/
theorem witness_FromHexFollowsItsRule :
    (∃ c : Command, c.op = 0x2#4 ∧ 32 < c.len.toNat) ∧ (∃ c : Command, c.op = 0x2#4 ∧ c.len.toNat ≤ 32) ∧
    ((Instr.fromHex 33 []).WellFormed ∧ 32 < (33 : Byte).toNat) ∧
    ((Instr.fromHex 32 (List.replicate 32 0x67)).WellFormed ∧ (32 : Byte).toNat ≤ 32 ∧
      ∃ ch ∈ List.replicate 32 (0x67 : Byte), ishex ch = false) ∧
    ((Instr.fromHex 32 (List.replicate 32 0x66)).WellFormed ∧ (32 : Byte).toNat ≤ 32 ∧
      ∀ ch ∈ List.replicate 32 (0x66 : Byte), ishex ch = true) ∧
    ((Instr.fromHex 0 []).WellFormed ∧ (0 : Byte).toNat ≤ 32 ∧ ∀ ch ∈ ([] : List Byte), ishex ch = true) :=
  ⟨⟨⟨2, 0, 0, 33, 0⟩, by decide⟩, ⟨⟨2, 0, 0, 32, 0⟩, by decide⟩, by decide, by decide, by decide, by decide⟩

theorem witness_HexValueIsThePositionalSum :
    (Instr.fromHex 32 (List.replicate 32 0x66)).WellFormed ∧ (32 : Byte).toNat ≤ 32 ∧
      ∀ ch ∈ List.replicate 32 (0x66 : Byte), ishex ch = true := by decide

/-- Length 17 and length 16. -/
theorem witness_FromBytesFollowsItsRule :
    (∃ c : Command, c.op = 0x3#4 ∧ 16 < c.len.toNat) ∧ (∃ c : Command, c.op = 0x3#4 ∧ c.len.toNat ≤ 16) ∧
    ((Instr.fromBytes 17 []).WellFormed ∧ 16 < (17 : Byte).toNat) ∧
    ((Instr.fromBytes 16 (List.replicate 16 0xFF)).WellFormed ∧ (16 : Byte).toNat ≤ 16) :=
  ⟨⟨⟨3, 0, 0, 17, 0⟩, by decide⟩, ⟨⟨3, 0, 0, 16, 0⟩, by decide⟩, by decide, by decide⟩

theorem witness_ShortByteInputIsLeftPadded :
    ((Instr.fromBytes 2 [1, 2]).WellFormed ∧ (2 : Byte).toNat ≤ 16) ∧
    ((Instr.fromBytes 16 (List.replicate 16 0xFF)).WellFormed ∧ (16 : Byte).toNat ≤ 16) := by decide

theorem witness_CmpComparesHalvesAndReportsTheOrder :
    (∃ c : Command, c.op = 0x4#4) ∧ (∃ c : Command, c.op ≠ 0x4#4) :=
  ⟨⟨⟨4, 0, 0, 0, 0⟩, rfl⟩, ⟨⟨5, 0, 0, 0, 0⟩, by decide⟩⟩

/-- 95 S2: 1 < 2 and 2 < 2^64. -/
theorem witness_CmpIsAntisymmetricAndTransitive :
    result (.cmp 1 2) = some (0, 0, 0b11) ∧ result (.cmp 2 (pair 1 0)) = some (0, 0, 0b11) := by decide

theorem witness_SubIsTheDifferenceModulo :
    (∃ a b : U128, b.toNat ≤ a.toNat) ∧ (∃ a b : U128, a.toNat < b.toNat) := ⟨⟨5, 5, by decide⟩, ⟨0, 1, by decide⟩⟩

theorem witness_HexcharIsLowercaseAscii :
    (∃ d : BitVec 4, d.toNat ≤ 9) ∧ (∃ d : BitVec 4, 10 ≤ d.toNat) := ⟨⟨9, by decide⟩, ⟨10, by decide⟩⟩

theorem witness_HexStringsFollowTheirRules :
    (∃ v : Half, v = 0#64) ∧ (∃ v : Half, v ≠ 0#64) ∧ (0#64).toNat < 16 ^ 0 ∧ (15#64).toNat < 16 ^ 1 :=
  ⟨⟨0, rfl⟩, ⟨1, by decide⟩, by decide, by decide⟩

/-- A value with and a value without a high half: the premises of the compact and canonical statements. -/
theorem witness_ToHexCompactWritesTheCompactString :
    (∃ a : U128, high a = 0#64) ∧ (∃ a : U128, high a ≠ 0#64) := ⟨⟨0x456, by decide⟩, ⟨pair 1 0, by decide⟩⟩

theorem witness_CompactStringIsMinimumWidthHex :
    (∃ a : U128, high a = 0#64) ∧ (∃ a : U128, high a ≠ 0#64) := ⟨⟨0, by decide⟩, ⟨pair 1 0x456, by decide⟩⟩

theorem witness_ToHexCanonPadsTheCompactString :
    ∃ (a : U128) (c : List Byte), c = if high a = 0#64 then hexmin (low a) else hexmin (high a) ++ hexfix (low a) 16 :=
  ⟨0, _, rfl⟩

theorem witness_ToBytesWritesSixteenBytes : ∃ i, 16 ≤ i ∧ i < 34 := ⟨16, by decide⟩

theorem witness_AssembledLinesSetTheirFields :
    32 < (List.replicate 33 (0x31 : Byte)).length ∧ 16 < (List.replicate 17 (0 : Byte)).length := by decide

end Sys2Proof.Tests
end

/-! # The response registers and the step (10_state.md) -/

namespace Sys2Proof.Proofs

open Sys2Proof.Machine Sys2Proof.Statements

/-! ## The step at an accepting edge -/

/-- The accepting edge of 10_state.md R30, its next state written out as an update of the registers. -/
theorem step_accept_eq_next {s : State} {p : PortInput} {rest : List PortInput} (h : s.inputs = p :: rest)
    (hr : p.rise = true) (hs : p.rst = false) (hv : p.cmdValid = true) :
    step s = .next ({ s with inputs := rest }.accept p.cmd.op (execResponse p.cmd)) := by
  rw [step_accept h hr hs hv, exec_decode]

/-- Settles O1: each case is the step's lemma for that kind of edge. -/
theorem clockStepFollowsItsRule : Obligations.ClockStepFollowsItsRule := by
  intro s p rest h
  exact ⟨step_hold h, step_reset h, step_accept_eq_next h, step_idle h⟩

/-! ## What the decoder reads (10_state.md R25) -/

theorem lanes_congr {w : Nat} {b b' : BitVec w} {n : Nat} (h : ∀ i < n, lane b i = lane b' i) :
    lanes b n = lanes b' n :=
  List.map_congr_left fun i hi => h i (List.mem_range.mp hi)

/-- The lanes a constructor reads agree when those below its length do; past the limit it reads none. -/
theorem lanes_lanesRead_congr {w limit : Nat} {len : Byte} {b b' : BitVec w}
    (h : len.toNat ≤ limit → ∀ i < len.toNat, lane b i = lane b' i) :
    lanes b (lanesRead limit len) = lanes b' (lanesRead limit len) := by
  rcases Nat.lt_or_ge limit len.toNat with hlt | hle
  · rw [lanesRead_of_lt hlt]; rfl
  · rw [lanesRead_of_le hle]
    exact lanes_congr (h hle)

/-- The rows of the table of 10_state.md R25 are all the opcodes. -/
theorem opcode_read_rows (op : OpBits) :
    op = 0x1#4 ∨ op = 0x2#4 ∨ op = 0x3#4 ∨ op ∈ [0x4#4, 0x5#4, 0x6#4, 0x7#4, 0x8#4, 0x9#4] ∨
    op ∈ [0xA#4, 0xB#4, 0xC#4] ∨ op ∈ [0x0#4, 0xD#4, 0xE#4, 0xF#4] := by
  revert op; decide

/-- A command with two operands decodes by them alone. -/
theorem decode_congr_of_two_operands {c d : Command} (hop : c.op = d.op)
    (h : c.op ∈ [0x4#4, 0x5#4, 0x6#4, 0x7#4, 0x8#4, 0x9#4]) (ha : c.a = d.a) (hb : c.b = d.b) :
    decode c = decode d := by
  simp only [List.mem_cons, List.not_mem_nil, or_false] at h
  rcases h with h | h | h | h | h | h <;> simp [decode, ← hop, h, ha, hb]

/-- A serializer decodes by its one operand alone. -/
theorem decode_congr_of_one_operand {c d : Command} (hop : c.op = d.op) (h : c.op ∈ [0xA#4, 0xB#4, 0xC#4])
    (ha : c.a = d.a) : decode c = decode d := by
  simp only [List.mem_cons, List.not_mem_nil, or_false] at h
  rcases h with h | h | h <;> simp [decode, ← hop, h, ha]

/-- A reserved opcode decodes by itself alone. -/
theorem decode_congr_of_reserved {c d : Command} (hop : c.op = d.op) (h : c.op ∈ [0x0#4, 0xD#4, 0xE#4, 0xF#4]) :
    decode c = decode d := by
  simp only [List.mem_cons, List.not_mem_nil, or_false] at h
  rcases h with h | h | h | h <;> simp [decode, ← hop, h]

/-- Commands that agree on the fields read decode to one instruction, row by row of the table of R25. -/
theorem decode_eq_of_sameReads {c d : Command} (h : SameReads c d) : decode c = decode d := by
  obtain ⟨hop, hlow, hhex, hbytes, htwo, hone⟩ := h
  rcases opcode_read_rows c.op with h | h | h | h | h | h
  · have hlow : low c.a = low d.a := hlow h
    simp [decode, ← hop, h, hlow]
  · obtain ⟨hlen, hbuf⟩ := hhex h
    rw [decode_fromHex c h, decode_fromHex d (hop ▸ h), ← hlen, lanes_lanesRead_congr hbuf]
  · obtain ⟨hlen, hbuf⟩ := hbytes h
    rw [decode_fromBytes c h, decode_fromBytes d (hop ▸ h), ← hlen, lanes_lanesRead_congr hbuf]
  · obtain ⟨ha, hb⟩ := htwo h
    exact decode_congr_of_two_operands hop h ha hb
  · exact decode_congr_of_one_operand hop h (hone h)
  · exact decode_congr_of_reserved hop h

/-- `Exec` depends on the fields its operation reads and on nothing else (10_state.md R29). -/
theorem execResponse_eq_of_sameReads {c d : Command} (h : SameReads c d) : execResponse c = execResponse d :=
  congrArg responseOf (decode_eq_of_sameReads h)

/-- The accepting edge writes every output, so none shows the state before (10_state.md R28, R36). -/
theorem accept_outputs_eq (op : OpBits) (r : Response) (s₁ s₂ : State) :
    (s₁.accept op r).outputs = (s₂.accept op r).outputs := rfl

/-- Settles O7: agreeing commands have one opcode and one `Exec`, and accepting writes every output from these. -/
theorem unreadFieldsAndHistoryHaveNoEffect : Obligations.UnreadFieldsAndHistoryHaveNoEffect := by
  intro c d s₁ s₂ r₁ r₂ h h₁ h₂
  refine ⟨_, _, step_accept_eq_next h₁ rfl rfl rfl, step_accept_eq_next h₂ rfl rfl rfl, ?_⟩
  have hop : c.op = d.op := h.1
  rw [hop, execResponse_eq_of_sameReads h]
  exact accept_outputs_eq ..

/-! ## What a response produces (10_state.md R28) -/

/-- The forms of response and the opcodes that answer with each: a value, an ordering, a sequence that the
output lanes hold, or a failure. -/
inductive Produces : OpBits → Response → Prop where
  | value {op : OpBits} (v : U128) (hop : op ∈ [0x1#4, 0x2#4, 0x3#4, 0x5#4, 0x6#4, 0x7#4, 0x8#4, 0x9#4]) :
      Produces op (.value v)
  | order (o : Ordering) : Produces 0x4#4 (.order o)
  | output {op : OpBits} (l : List Byte) (hop : op ∈ [0xA#4, 0xB#4, 0xC#4]) (hlen : l.length ≤ 34) :
      Produces op (.output l)
  | fail {op : OpBits} (st : Status) (hop : op ∈ [0x0#4, 0x2#4, 0x3#4, 0xD#4, 0xE#4, 0xF#4]) :
      Produces op (.fail st)

theorem respFromHex_produces (len : Byte) (chars : List Byte) : Produces 0x2#4 (respFromHex len chars) := by
  unfold respFromHex
  split
  · exact .fail _ (by decide)
  · split
    · exact .value _ (by decide)
    · exact .fail _ (by decide)

theorem respFromBytes_produces (len : Byte) (bytes : List Byte) : Produces 0x3#4 (respFromBytes len bytes) := by
  unfold respFromBytes
  split
  · exact .fail _ (by decide)
  · exact .value _ (by decide)

/-- The form of each instruction's response. -/
theorem responseOf_produces (i : Instr) : Produces i.opcode (responseOf i) := by
  cases i with
  | fromHex len chars => exact respFromHex_produces len chars
  | fromBytes len bytes => exact respFromBytes_produces len bytes
  | cmp a b => exact .order _
  | fromU64 | and | or | xor | add | sub => exact .value _ (by simp [Instr.opcode])
  | toBytes a => exact .output _ (by simp [Instr.opcode]) (by simp)
  | toHexCompact a => exact .output _ (by simp [Instr.opcode]) (by have := compactString_length a; omega)
  | toHexCanon a => exact .output _ (by simp [Instr.opcode]) (canonString_length a).le
  | reserved0 | reservedD | reservedE | reservedF => exact .fail _ (by decide)

theorem execResponse_produces (c : Command) : Produces c.op (execResponse c) :=
  decode_opcode c ▸ responseOf_produces (decode c)

section
variable {op : OpBits} {r : Response}

theorem Produces.val_eq_zero (h : Produces op r)
    (hop : op ∉ [0x1#4, 0x2#4, 0x3#4, 0x5#4, 0x6#4, 0x7#4, 0x8#4, 0x9#4]) : r.val = 0#128 := by
  cases h with
  | value v hv => exact absurd hv hop
  | order | output | fail => rfl

theorem Produces.ord_eq_zero (h : Produces op r) (hop : op ≠ 0x4#4) : r.ord = 0#2 := by
  cases h with
  | order => exact absurd rfl hop
  | value | output | fail => rfl

theorem Produces.len_buf_eq_zero (h : Produces op r) (hop : op ∉ [0xA#4, 0xB#4, 0xC#4]) :
    r.len = 0#6 ∧ r.buf = 0#272 := by
  cases h with
  | output l hl => exact absurd hl hop
  | value | order | fail => exact ⟨rfl, rfl⟩

theorem Produces.status_eq_zero (h : Produces op r)
    (hop : op ∉ [0x0#4, 0x2#4, 0x3#4, 0xD#4, 0xE#4, 0xF#4]) : r.status = 0#3 := by
  cases h with
  | fail st hst => exact absurd hst hop
  | value | order | output => rfl

/-- A failure leaves every other field as in the zero response (10_state.md R28, R29). -/
theorem Produces.eq_zero_of_failed (h : Produces op r) (hst : r.status ≠ 0#3) :
    r.val = 0#128 ∧ r.ord = 0#2 ∧ r.len = 0#6 ∧ r.buf = 0#272 := by
  cases h with
  | fail => exact ⟨rfl, rfl, rfl, rfl⟩
  | value | order | output => exact absurd rfl hst

/-- The length register counts the whole sequence of an output response. -/
theorem output_len_toNat {l : List Byte} (h : l.length ≤ 34) : (Response.output l).len.toNat = l.length := by
  rw [Response.output_len, BitVec.toNat_ofNat, Nat.mod_eq_of_lt (by omega)]

/-- Every lane from the length up is 0: past the sequence of an output, and everywhere in the other forms. -/
theorem Produces.lane_eq_zero (h : Produces op r) {i : Nat} (hi : i < 34) (hlen : r.len.toNat ≤ i) :
    lane r.buf i = 0#8 := by
  cases h with
  | output l _ hl =>
    rw [output_len_toNat hl] at hlen
    rw [output_lane l i hi, List.getD_eq_default l _ hlen]
  | value | order | fail => exact BitVec.extractLsb'_zero

end

/-- Settles O19: the registers after an accepted command are the fields of a response of one of the forms. -/
theorem unproducedFieldsAreWrittenZero : Obligations.UnproducedFieldsAreWrittenZero := by
  intro c s
  have h := execResponse_produces c
  exact ⟨_, exec_decode c s, rfl, rfl, h.val_eq_zero, h.ord_eq_zero, h.len_buf_eq_zero, h.status_eq_zero,
    fun i hi hlen => h.lane_eq_zero hi hlen, h.eq_zero_of_failed⟩

end Sys2Proof.Proofs

/-! # The command word and the opcode map (30_encoding.md) -/

namespace Sys2Proof.Proofs

open Sys2Proof.Machine

/-! ## The fields of the packed command word (30_encoding.md R60)

`pack` concatenates the fields with `op` lowest: a field is cut out by dropping the fields below it, then those
above it. -/

section
variable (c : Command)

theorem pack_extract_a : (pack c).extractLsb' 4 128 = c.a := by
  unfold pack
  rw [BitVec.extractLsb'_append_eq_of_le (by omega)]
  exact BitVec.extractLsb'_append_eq_right

theorem pack_extract_b : (pack c).extractLsb' 132 128 = c.b := by
  unfold pack
  rw [BitVec.extractLsb'_append_eq_of_le (by omega), BitVec.extractLsb'_append_eq_of_le (by omega)]
  exact BitVec.extractLsb'_append_eq_right

theorem pack_extract_len : (pack c).extractLsb' 260 8 = c.len := by
  unfold pack
  rw [BitVec.extractLsb'_append_eq_of_le (by omega), BitVec.extractLsb'_append_eq_of_le (by omega),
    BitVec.extractLsb'_append_eq_of_le (by omega)]
  exact BitVec.extractLsb'_append_eq_right

theorem pack_extract_buf : (pack c).extractLsb' 268 256 = c.buf := by
  unfold pack
  rw [BitVec.extractLsb'_append_eq_of_le (by omega), BitVec.extractLsb'_append_eq_of_le (by omega),
    BitVec.extractLsb'_append_eq_of_le (by omega)]
  exact BitVec.extractLsb'_append_eq_left

/-- Unpacking cuts out each field where packing put it. -/
theorem unpack_pack : unpack (pack c) = c := by
  rw [unpack_eq, Laws.EncodedOpcode.pack_op, pack_extract_a, pack_extract_b, pack_extract_len, pack_extract_buf]

end

/-- The five fields are adjacent and cover the word, so packing puts back what unpacking cut out. -/
theorem pack_unpack (cw : CmdWord) : pack (unpack cw) = cw := by
  change cw.extractLsb' 268 256 ++ cw.extractLsb' 260 8 ++ cw.extractLsb' 132 128 ++ cw.extractLsb' 4 128 ++
    cw.extractLsb' 0 4 = cw
  rw [BitVec.extractLsb'_append_extractLsb'_eq_extractLsb' (show 268 = 260 + 8 from rfl),
    BitVec.extractLsb'_append_extractLsb'_eq_extractLsb' (show 260 = 132 + 128 from rfl),
    BitVec.extractLsb'_append_extractLsb'_eq_extractLsb' (show 132 = 4 + 128 from rfl),
    BitVec.extractLsb'_append_extractLsb'_eq_extractLsb' (show 4 = 0 + 4 from rfl)]
  exact BitVec.extractLsb'_eq_self

/-- A range of bits inside a field stands in the word at the field's start plus its own. -/
theorem extractLsb'_of_field {n w start : Nat} {x : BitVec n} {field : BitVec w} (h : x.extractLsb' start w = field)
    {off len : Nat} (hle : off + len ≤ w) : x.extractLsb' (start + off) len = field.extractLsb' off len := by
  subst h
  ext k hk
  have hw : off + k < w := by omega
  simp [hw, Nat.add_assoc]

/-- Lane `i` of the input buffer is `CW[275+8*i : 268+8*i]`. -/
theorem pack_extract_lane (c : Command) {i : Nat} (hi : i < 32) :
    (pack c).extractLsb' (268 + 8 * i) 8 = lane c.buf i :=
  extractLsb'_of_field (pack_extract_buf c) (by omega)

/-- Settles O13: each field is cut out of the concatenation, and a half or a lane out of its field. -/
theorem commandWordFieldsStandWhereSaid : Obligations.CommandWordFieldsStandWhereSaid := by
  refine ⟨unpack_pack, pack_unpack, fun c => ?_⟩
  have ha := pack_extract_a c
  have hb := pack_extract_b c
  exact ⟨Laws.EncodedOpcode.pack_op c, ha, hb, pack_extract_len c, pack_extract_buf c,
    extractLsb'_of_field ha (off := 64) (by omega), extractLsb'_of_field ha (off := 0) (by omega),
    extractLsb'_of_field hb (off := 64) (by omega), extractLsb'_of_field hb (off := 0) (by omega),
    fun i hi => pack_extract_lane c hi⟩

/-! ## The decoder, row by row (30_encoding.md R61)

The rows of FROM_HEX and FROM_BYTES are `decode_fromHex` and `decode_fromBytes`. -/

section
variable {c : Command}

theorem decode_reserved0 (h : c.op = 0x0#4) : decode c = .reserved0 := by simp [decode, h]
theorem decode_fromU64 (h : c.op = 0x1#4) : decode c = .fromU64 (low c.a) := by simp [decode, h]
theorem decode_cmp (h : c.op = 0x4#4) : decode c = .cmp c.a c.b := by simp [decode, h]
theorem decode_and (h : c.op = 0x5#4) : decode c = .and c.a c.b := by simp [decode, h]
theorem decode_or (h : c.op = 0x6#4) : decode c = .or c.a c.b := by simp [decode, h]
theorem decode_xor (h : c.op = 0x7#4) : decode c = .xor c.a c.b := by simp [decode, h]
theorem decode_add (h : c.op = 0x8#4) : decode c = .add c.a c.b := by simp [decode, h]
theorem decode_sub (h : c.op = 0x9#4) : decode c = .sub c.a c.b := by simp [decode, h]
theorem decode_toBytes (h : c.op = 0xA#4) : decode c = .toBytes c.a := by simp [decode, h]
theorem decode_toHexCompact (h : c.op = 0xB#4) : decode c = .toHexCompact c.a := by simp [decode, h]
theorem decode_toHexCanon (h : c.op = 0xC#4) : decode c = .toHexCanon c.a := by simp [decode, h]
theorem decode_reservedD (h : c.op = 0xD#4) : decode c = .reservedD := by simp [decode, h]
theorem decode_reservedE (h : c.op = 0xE#4) : decode c = .reservedE := by simp [decode, h]
theorem decode_reservedF (h : c.op = 0xF#4) : decode c = .reservedF := by simp [decode, h]

end

/-- Settles O14: the decoder keeps the opcode, and each code is one row of the decoder. -/
theorem opcodeAloneSelectsTheOperation : Obligations.OpcodeAloneSelectsTheOperation := fun c =>
  ⟨decode_opcode c, decode_reserved0, fun h => ⟨_, decode_fromU64 h⟩, fun h => ⟨_, decode_fromHex c h⟩,
    fun h => ⟨_, decode_fromBytes c h⟩, decode_cmp, decode_and, decode_or, decode_xor, decode_add, decode_sub,
    decode_toBytes, decode_toHexCompact, decode_toHexCanon, decode_reservedD, decode_reservedE, decode_reservedF⟩

end Sys2Proof.Proofs

/-! # The constructors (40_construct.md) -/

namespace Sys2Proof.Proofs

open Sys2Proof.Machine Sys2Proof.Statements

/-! ## The next state, by the form of the response (10_state.md R28, R30) -/

section
variable (i : Instr) (s : State)

theorem exec_eq_answered_of_value {v : U128} (h : responseOf i = .value v) :
    exec i s = .next (answered s i.opcode 0 v 0 0 0) := by
  rw [exec_eq_accept, h]; rfl

theorem exec_eq_answered_of_fail {st : Status} (h : responseOf i = .fail st) :
    exec i s = .next (answered s i.opcode st.code 0 0 0 0) := by
  rw [exec_eq_accept, h]; rfl

end

/-! ## The lanes a constructor decodes to (10_state.md R25) -/

section
variable {w limit : Nat} {len : Byte} (buf : BitVec w)

theorem lanes_lanesRead_of_lt (h : limit < len.toNat) : lanes buf (lanesRead limit len) = [] := by
  rw [lanesRead_of_lt h]; rfl

theorem lanes_lanesRead_of_le (h : len.toNat ≤ limit) :
    lanes buf (lanesRead limit len) = (List.range len.toNat).map fun i => buf.extractLsb' (8 * i) 8 := by
  rw [lanesRead_of_le h]; rfl

end

/-! ## FROM_HEX (40_construct.md R83) -/

section
variable {len : Byte} {chars : List Byte}

theorem respFromHex_of_too_long (h : 32 < len.toNat) : respFromHex len chars = .fail .hexTooLong :=
  if_pos h

theorem respFromHex_of_bad_char (hlen : len.toNat ≤ 32) (h : ∃ ch ∈ chars, ishex ch = false) :
    respFromHex len chars = .fail .hexBadChar := by
  have hall : ¬ chars.all ishex = true := by simpa using h
  rw [respFromHex, if_neg (Nat.not_lt.mpr hlen), if_neg hall]

theorem respFromHex_of_hex (hlen : len.toNat ≤ 32) (h : ∀ ch ∈ chars, ishex ch = true) :
    respFromHex len chars = .value (hexValue chars) := by
  rw [respFromHex, if_neg (Nat.not_lt.mpr hlen), if_pos (List.all_eq_true.mpr h)]

end

/-- Settles O22: the decoder's row with the lanes read, and the three cases of the response in their order. -/
theorem fromHexFollowsItsRule : Obligations.FromHexFollowsItsRule := by
  refine ⟨fun c hop => ?_, fun len chars s _ => ⟨fun hlen => ?_, fun hlen hbad => ?_, fun hlen hhex => ?_⟩⟩
  · rw [decode_fromHex c hop]
    exact ⟨fun h => congrArg _ (lanes_lanesRead_of_lt c.buf h), fun h => congrArg _ (lanes_lanesRead_of_le c.buf h)⟩
  · exact exec_eq_answered_of_fail (.fromHex len chars) s (respFromHex_of_too_long hlen)
  · exact exec_eq_answered_of_fail (.fromHex len chars) s (respFromHex_of_bad_char hlen hbad)
  · rw [← hexValue_eq]
    exact exec_eq_answered_of_value (.fromHex len chars) s (respFromHex_of_hex hlen hhex)

/-! ## FROM_BYTES (40_construct.md R89) -/

section
variable {len : Byte} {bytes : List Byte}

theorem respFromBytes_of_too_long (h : 16 < len.toNat) : respFromBytes len bytes = .fail .bytesTooLong :=
  if_pos h

theorem respFromBytes_of_le (h : len.toNat ≤ 16) : respFromBytes len bytes = .value (bytesValue bytes) :=
  if_neg (Nat.not_lt.mpr h)

end

/-- Settles O24: the decoder's row with the lanes read, and the two cases of the response. -/
theorem fromBytesFollowsItsRule : Obligations.FromBytesFollowsItsRule := by
  refine ⟨fun c hop => ?_, fun len bytes s _ => ⟨fun hlen => ?_, fun hlen => ?_⟩⟩
  · rw [decode_fromBytes c hop]
    exact ⟨fun h => congrArg _ (lanes_lanesRead_of_lt c.buf h), fun h => congrArg _ (lanes_lanesRead_of_le c.buf h)⟩
  · exact exec_eq_answered_of_fail (.fromBytes len bytes) s (respFromBytes_of_too_long hlen)
  · rw [← bytesValue_eq]
    exact exec_eq_answered_of_value (.fromBytes len bytes) s (respFromBytes_of_le hlen)

/-! ## FROM_U64 (40_construct.md R80) -/

/-- Zero extension keeps the number. -/
theorem zeroExtend_eq_ofNat (u : Half) : zeroExtend u = BitVec.ofNat 128 u.toNat := by
  apply BitVec.eq_of_toNat_eq
  rw [zeroExtend, pair_toNat, BitVec.toNat_ofNat, BitVec.toNat_ofNat]
  omega

/-- Settles O20: the decoder's row, and the response's value as a number. -/
theorem fromU64ZeroExtendsItsOperand : Obligations.FromU64ZeroExtendsItsOperand :=
  ⟨fun _ hop => decode_fromU64 hop, fun u s => zeroExtend_eq_ofNat u ▸ exec_eq_answered_of_value (.fromU64 u) s rfl⟩

/-! ## Hex digits (40_construct.md R81) -/

section
variable {c : Byte}

theorem ishex_iff : ishex c = true ↔
    (0x30 ≤ c.toNat ∧ c.toNat ≤ 0x39) ∨ (0x41 ≤ c.toNat ∧ c.toNat ≤ 0x46) ∨ (0x61 ≤ c.toNat ∧ c.toNat ≤ 0x66) := by
  simp [ishex, BitVec.le_def, or_assoc]

/-- The digit at offset `c - k` in its range, where it fits in four bits. -/
theorem toNat_setWidth_sub {k : Nat} (hk : k ≤ c.toNat) (h : c.toNat < k + 16) :
    ((c - BitVec.ofNat 8 k).setWidth 4).toNat = c.toNat - k := by
  rw [BitVec.toNat_setWidth, BitVec.toNat_sub, BitVec.toNat_ofNat]
  omega

theorem hexval_of_digit (h : 0x30 ≤ c.toNat ∧ c.toNat ≤ 0x39) : (hexval c).toNat = c.toNat - 0x30 := by
  obtain ⟨hlo, hhi⟩ := h
  rw [hexval, if_pos (BitVec.le_def.mpr hhi)]
  exact toNat_setWidth_sub hlo (by omega)

theorem hexval_of_upper (h : 0x41 ≤ c.toNat ∧ c.toNat ≤ 0x46) : (hexval c).toNat = c.toNat - 0x37 := by
  obtain ⟨hlo, hhi⟩ := h
  have hdigit : ¬ c ≤ 0x39#8 := fun hle => absurd (hlo.trans (BitVec.le_def.mp hle)) (by decide)
  rw [hexval, if_neg hdigit, if_pos (BitVec.le_def.mpr hhi)]
  exact toNat_setWidth_sub (by omega) (by omega)

theorem hexval_of_lower (h : 0x61 ≤ c.toNat ∧ c.toNat ≤ 0x66) : (hexval c).toNat = c.toNat - 0x57 := by
  obtain ⟨hlo, hhi⟩ := h
  have hdigit : ¬ c ≤ 0x39#8 := fun hle => absurd (hlo.trans (BitVec.le_def.mp hle)) (by decide)
  have hupper : ¬ c ≤ 0x46#8 := fun hle => absurd (hlo.trans (BitVec.le_def.mp hle)) (by decide)
  rw [hexval, if_neg hdigit, if_neg hupper]
  exact toNat_setWidth_sub (by omega) (by omega)

end

/-- Settles O21: the alphabet, and the value in each of its three ranges. -/
theorem hexDigitAlphabetAndValues : Obligations.HexDigitAlphabetAndValues := fun _ =>
  ⟨ishex_iff, hexval_of_digit, hexval_of_upper, hexval_of_lower⟩

end Sys2Proof.Proofs

/-! # The comparison (41_compare.md) -/

namespace Sys2Proof.Proofs

open Sys2Proof.Machine Sys2Proof.Statements

/-! ## CMP (41_compare.md R101) -/

theorem exec_eq_answered_of_order (i : Instr) (s : State) {o : Ordering} (h : responseOf i = .order o) :
    exec i s = .next (answered s i.opcode 0 0 (ordCode o) 0 0) := by
  rw [exec_eq_accept, h]; rfl

/-- The code of the order by halves, each comparison of halves read as one of numbers. -/
theorem ordCode_compareHalves (a b : U128) : ordCode (compareHalves a b) =
    if (high a).toNat < (high b).toNat then 0b11
    else if (high b).toNat < (high a).toNat then 0b01
    else if (low a).toNat < (low b).toNat then 0b11
    else if (low b).toNat < (low a).toNat then 0b01
    else 0b00 := by
  simp only [compareHalves, apply_ite ordCode, BitVec.lt_def]
  rfl

/-! ## The ordering codes (41_compare.md R100) -/

theorem ordCode_ne_unused (o : Ordering) : ordCode o ≠ 0b10#2 := by
  cases o <;> decide

/-- No form of response holds the code that stands for no ordering. -/
theorem Produces.ord_ne_unused {op : OpBits} {r : Response} (h : Produces op r) : r.ord ≠ 0b10#2 := by
  cases h with
  | order o => exact ordCode_ne_unused o
  | value | output | fail => exact show 0#2 ≠ 0b10#2 by decide

theorem ordering_of_cmp {s : State} (hop : s.rspOp = 0x4#4) (hst : s.rspStatus = 0#3) :
    s.ordering = orderingOfCode s.rspOrd :=
  if_pos ⟨hop, hst⟩

theorem ordering_of_not_cmp {s : State} (hop : s.rspOp ≠ 0x4#4) : s.ordering = none :=
  if_neg fun ⟨h, _⟩ => hop h

/-- Settles O26: CMP answers the code of the order by halves; after any command the code is that of a response of
one of the forms, and CMP, which never fails, is the one opcode whose code reads as an ordering. -/
theorem cmpComparesHalvesAndReportsTheOrder : Obligations.CmpComparesHalvesAndReportsTheOrder := by
  refine ⟨fun _ => decode_cmp, fun a b s => ?_, by decide, fun c s => ?_⟩
  · rw [← ordCode_compareHalves]
    exact exec_eq_answered_of_order (.cmp a b) s rfl
  · have h := execResponse_produces c
    refine ⟨_, exec_decode c s, h.ord_ne_unused, fun hop => ?_, fun hop => ⟨h.ord_eq_zero hop, ordering_of_not_cmp hop⟩⟩
    have hst : (execResponse c).status = 0#3 := h.status_eq_zero (by rw [hop]; decide)
    exact ordering_of_cmp hop hst

end Sys2Proof.Proofs

/-! # The bitwise operations (42_bitwise.md) -/

namespace Sys2Proof.Proofs

open Sys2Proof.Machine Sys2Proof.Statements

/-- An instruction whose value is an operator applied half by half (42_bitwise.md R105). -/
theorem exec_eq_answered_of_halfwise (i : Instr) (s : State) {op : Half → Half → Half} {a b : U128}
    (h : responseOf i = .value (halfwise op a b)) :
    exec i s = .next (answered s i.opcode 0 (pair (op (high a) (high b)) (op (low a) (low b))) 0 0 0) :=
  exec_eq_answered_of_value i s h

/-- Settles O29: the decoder's three rows, and the one half-by-half form of the three responses. -/
theorem bitwiseOperationsActOnBothHalves : Obligations.BitwiseOperationsActOnBothHalves :=
  ⟨fun _ => ⟨decode_and, decode_or, decode_xor⟩,
    fun a b s => exec_eq_answered_of_halfwise (.and a b) s rfl,
    fun a b s => exec_eq_answered_of_halfwise (.or a b) s rfl,
    fun a b s => exec_eq_answered_of_halfwise (.xor a b) s rfl⟩

end Sys2Proof.Proofs

/-! # The arithmetic (43_arith.md) -/

namespace Sys2Proof.Proofs

open Sys2Proof.Machine

/-- The carry as a test on the low sum (43_arith.md R116). -/
theorem carry_eq_ite (a b : U128) : carry a b = if low a + low b < low a then 1 else 0 := rfl

/-- The borrow as a test on the low halves (43_arith.md R120). -/
theorem borrow_eq_ite (a b : U128) : borrow a b = if low a < low b then 1 else 0 := rfl

/-- Settles O31: the decoder's row, and the response's value with its carry written out. -/
theorem addCarriesFromLowToHigh : Obligations.AddCarriesFromLowToHigh := by
  refine ⟨fun _ => decode_add, fun a b s => ?_⟩
  rw [← carry_eq_ite]
  exact exec_eq_answered_of_value (.add a b) s (v := addHalves a b) rfl

/-- Settles O33: the decoder's row, and the response's value with its borrow written out. -/
theorem subBorrowsFromHighForLow : Obligations.SubBorrowsFromHighForLow := by
  refine ⟨fun _ => decode_sub, fun a b s => ?_⟩
  rw [← borrow_eq_ite]
  exact exec_eq_answered_of_value (.sub a b) s (v := subHalves a b) rfl

end Sys2Proof.Proofs

/-! # The serializers (44_serialize.md) -/

namespace Sys2Proof.Proofs

open Sys2Proof.Machine Sys2Proof.Statements

/-! ## Hex characters (44_serialize.md R130) -/

section
variable {d : BitVec 4}

theorem hexchar_toNat_of_le (h : d.toNat ≤ 9) : (hexchar d).toNat = 0x30 + d.toNat := by
  rw [hexchar, if_pos (BitVec.le_def.mpr h), BitVec.toNat_add, BitVec.toNat_setWidth, BitVec.toNat_ofNat]
  omega

theorem hexchar_toNat_of_ge (h : 10 ≤ d.toNat) : (hexchar d).toNat = 0x57 + d.toNat := by
  have hnot : ¬ d ≤ 9#4 := fun hle => absurd (h.trans (BitVec.le_def.mp hle)) (by decide)
  rw [hexchar, if_neg hnot, BitVec.toNat_add, BitVec.toNat_setWidth, BitVec.toNat_ofNat]
  omega

/-- Only the digit 0 has the character `'0'`. -/
theorem toNat_eq_zero_of_hexchar_eq (h : hexchar d = 0x30#8) : d.toNat = 0 := by
  have hnat : (hexchar d).toNat = 0x30 := congrArg BitVec.toNat h
  rcases Nat.lt_or_ge 9 d.toNat with hgt | hle
  · rw [hexchar_toNat_of_ge hgt] at hnat
    omega
  · rw [hexchar_toNat_of_le hle] at hnat
    omega

end

/-- Settles O36: the two branches of `hexchar`, each a sum that fits in a byte. -/
theorem hexcharIsLowercaseAscii : Obligations.HexcharIsLowercaseAscii := fun _ =>
  ⟨hexchar_toNat_of_le, hexchar_toNat_of_ge⟩

/-! ## The digits of `hexfix` and of `hexmin` (44_serialize.md R131, R132) -/

/-- A hex digit is four bits. -/
theorem sixteen_pow_eq (k : Nat) : 16 ^ k = 2 ^ (4 * k) := (Nat.pow_mul 2 4 k).symm

section
variable {w : Nat} (v : BitVec w)

theorem hexfix_getD {n j : Nat} (hj : j < n) :
    (hexfix v n).getD j 0#8 = hexchar (v.extractLsb' (4 * (n - 1 - j)) 4) := by
  rw [List.getD_eq_getElem _ _ (by simpa using hj)]
  simp [hexfix]

/-- The nibble at bit `4 * k` is the digit of weight `16 ^ k`. -/
theorem extractLsb'_nibble (k : Nat) : v.extractLsb' (4 * k) 4 = BitVec.ofNat 4 (v.toNat / 16 ^ k) := by
  rw [BitVec.extractLsb', Nat.shiftRight_eq_div_pow, sixteen_pow_eq]

theorem bitlength_eq_size : bitlength v = Nat.size v.toNat := by
  unfold bitlength
  split
  next h => rw [h, Nat.size_zero]
  next h => exact le_antisymm (Nat.lt_size.mpr (Nat.log2_self_le h)) (Nat.size_le.mpr Nat.lt_log2_self)

theorem hexminDigits_eq : hexminDigits v = max 1 ((Nat.size v.toNat + 3) / 4) := by
  rw [hexminDigits, bitlength_eq_size]

theorem hexmin_of_eq_zero (h : v.toNat = 0) : hexmin v = [0x30#8] := by
  have hdigits : hexminDigits v = 1 := by rw [hexminDigits_eq, h, Nat.size_zero]; rfl
  rw [hexmin, hexfix_eq, hdigits, h]
  decide

/-- The highest set bit of a value is in its top digit. -/
theorem top_digit_bounds (h : v.toNat ≠ 0) :
    0 < v.toNat / 16 ^ (hexminDigits v - 1) ∧ v.toNat / 16 ^ (hexminDigits v - 1) < 16 := by
  have hdigits := hexminDigits_eq v
  have hsize : 0 < Nat.size v.toNat := Nat.size_pos.mpr (Nat.pos_of_ne_zero h)
  have hlo : 16 ^ (hexminDigits v - 1) ≤ v.toNat := by
    rw [sixteen_pow_eq]
    exact Nat.lt_size.mp (by omega)
  have hhi : v.toNat < 16 ^ (hexminDigits v - 1) * 16 := by
    rw [← pow_succ, sixteen_pow_eq]
    exact Nat.size_le.mp (by omega)
  exact ⟨Nat.div_pos hlo (by positivity), Nat.div_lt_of_lt_mul hhi⟩

/-- No leading zero: the first character is that of the top digit, which is not 0. -/
theorem hexmin_getD_zero_ne (h : v.toNat ≠ 0) : (hexmin v).getD 0 0#8 ≠ 0x30#8 := by
  have hpos : 0 < hexminDigits v := (hexminDigits_bounds v).1
  obtain ⟨htop, hlt⟩ := top_digit_bounds v h
  rw [hexmin, hexfix_getD v hpos, Nat.sub_zero, extractLsb'_nibble]
  intro hchar
  have hdigit := toNat_eq_zero_of_hexchar_eq hchar
  rw [BitVec.toNat_ofNat, Nat.mod_eq_of_lt hlt] at hdigit
  exact htop.ne' hdigit

end

/-- Settles O37: the digits of `hexfix`, of which `hexmin` takes as many as reach the highest set bit. -/
theorem hexStringsFollowTheirRules : Obligations.HexStringsFollowTheirRules := by
  refine ⟨fun v => ⟨?_, fun j hj => ?_, fun hzero => ?_, fun hne => ?_⟩,
    fun w v n _ => ⟨hexfix_length v n, fun j hj => ?_⟩⟩
  · rw [hexmin_length, hexminDigits_eq]
  · rw [hexmin_length] at hj ⊢
    exact hexfix_getD v hj
  · exact hexmin_of_eq_zero v (congrArg BitVec.toNat hzero)
  · exact hexmin_getD_zero_ne v fun hnat => hne (BitVec.eq_of_toNat_eq hnat)
  · rw [hexfix_getD v hj, extractLsb'_nibble]

/-! ## The next state of an output response (10_state.md R28, R30) -/

section
variable (i : Instr) (s : State) {l : List Byte}

theorem exec_eq_answered_of_output (h : responseOf i = .output l) :
    exec i s = .next (answered s i.opcode 0 0 0 (BitVec.ofNat 6 l.length) (laneBuf 272 l)) := by
  rw [exec_eq_accept, h]; rfl

/-- The same, where the length is known. -/
theorem exec_eq_answered_of_output_length {n : Nat} (h : responseOf i = .output l) (hlen : l.length = n) :
    exec i s = .next (answered s i.opcode 0 0 0 (BitVec.ofNat 6 n) (laneBuf 272 l)) :=
  hlen ▸ exec_eq_answered_of_output i s h

end

/-- The output buffer holds the sequence written to it. -/
theorem bufHolds_laneBuf (l : List Byte) : BufHolds (laneBuf 272 l) l := output_lane l

/-! ## TO_BYTES (44_serialize.md R133) -/

theorem bigEndianBytes_getD (v : U128) {i : Nat} (hi : i < 16) :
    (bigEndianBytes v).getD i 0#8 = v.extractLsb' (120 - 8 * i) 8 := by
  rw [List.getD_eq_getElem _ _ (by simpa using hi)]
  simp [bigEndianBytes]

/-- Settles O38: the decoder's row, and the buffer's lanes as the elements of the byte sequence. -/
theorem toBytesWritesSixteenBytes : Obligations.ToBytesWritesSixteenBytes := by
  refine ⟨fun _ => decode_toBytes,
    fun a s => ⟨laneBuf 272 (bigEndianBytes a), ?_, fun i hi => ?_, fun i hle hi => ?_⟩⟩
  · exact exec_eq_answered_of_output_length (.toBytes a) s rfl (bigEndianBytes_length a)
  · exact (bufHolds_laneBuf _ i (by omega)).trans (bigEndianBytes_getD a hi)
  · exact (bufHolds_laneBuf _ i hi).trans (List.getD_eq_default _ _ ((bigEndianBytes_length a).trans_le hle))

/-! ## TO_HEX_COMPACT (44_serialize.md R134) -/

theorem compactString_of_high_eq_zero {a : U128} (h : high a = 0#64) : compactString a = hexmin (low a) :=
  if_pos h

theorem compactString_of_high_ne_zero {a : U128} (h : high a ≠ 0#64) :
    compactString a = hexmin (high a) ++ hexfix (low a) 16 :=
  if_neg h

/-- Settles O39: the decoder's row, and the compact string by its two cases, short enough for the registers. -/
theorem toHexCompactWritesTheCompactString : Obligations.ToHexCompactWritesTheCompactString := by
  refine ⟨fun _ => decode_toHexCompact, fun a s => ?_⟩
  have hlen : (compactString a).length ≤ 34 := (compactString_length a).2.trans (by decide)
  exact ⟨_, _, compactString a, exec_eq_answered_of_output (.toHexCompact a) s rfl, compactString_of_high_eq_zero,
    compactString_of_high_ne_zero, output_len_toNat hlen, bufHolds_laneBuf _⟩

/-! ## TO_HEX_CANON (44_serialize.md R136) -/

/-- The canonical string as `"0x"`, the padding and the compact string. -/
theorem canonString_eq_append (a : U128) : canonString a =
    [0x30#8, 0x78#8] ++ List.replicate (32 - (compactString a).length) 0x30#8 ++ compactString a := rfl

/-- Settles O41: the decoder's row, and the buffer of the canonical string, whose last part is the compact string. -/
theorem toHexCanonPadsTheCompactString : Obligations.ToHexCanonPadsTheCompactString := by
  refine ⟨fun _ => decode_toHexCanon, fun a s => ⟨laneBuf 272 (canonString a), ?_, fun l hl => ?_⟩⟩
  · exact exec_eq_answered_of_output_length (.toHexCanon a) s rfl (canonString_length a)
  · have hl : l = compactString a := hl
    subst hl
    rw [← canonString_eq_append]
    exact ⟨(compactString_length a).2, bufHolds_laneBuf _⟩

end Sys2Proof.Proofs

/-! # The status register (60_exceptions.md) -/

namespace Sys2Proof.Proofs

open Sys2Proof.Machine Sys2Proof.Statements

/-! ## `Exec` of the commands that can fail -/

section
variable {c : Command}

theorem execResponse_of_fromHex (hop : c.op = 0x2#4) :
    execResponse c = respFromHex c.len (lanes c.buf (lanesRead Config.hexMaxChars c.len)) :=
  congrArg responseOf (decode_fromHex c hop)

theorem execResponse_of_fromBytes (hop : c.op = 0x3#4) :
    execResponse c = respFromBytes c.len (lanes c.buf (lanesRead Config.bytesMax c.len)) :=
  congrArg responseOf (decode_fromBytes c hop)

/-- A reserved opcode fails, whatever the other fields of the command (60_exceptions.md R153). -/
theorem execResponse_of_reserved (hop : c.op ∈ [0x0#4, 0xD#4, 0xE#4, 0xF#4]) :
    execResponse c = .fail .illegalOp := by
  simp only [List.mem_cons, List.not_mem_nil, or_false] at hop
  rcases hop with h | h | h | h
  · exact congrArg responseOf (decode_reserved0 h)
  · exact congrArg responseOf (decode_reservedD h)
  · exact congrArg responseOf (decode_reservedE h)
  · exact congrArg responseOf (decode_reservedF h)

/-- The characters FROM_HEX reads hold a bad one exactly when a lane below its length does. -/
theorem exists_bad_char_iff (hlen : c.len.toNat ≤ 32) :
    (∃ ch ∈ lanes c.buf (lanesRead Config.hexMaxChars c.len), ishex ch = false) ↔
      ∃ i < c.len.toNat, ishex (c.buf.extractLsb' (8 * i) 8) = false := by
  rw [lanes_lanesRead_of_le c.buf hlen]
  simp only [List.mem_map, exists_exists_and_eq_and, List.mem_range]

end

/-! ## The cause of each status (60_exceptions.md R150, R152) -/

/-- The cause for which a command reports a status other than 0. -/
def Raises (c : Command) : Status → Prop
  | .ok           => False
  | .hexTooLong   => c.op = 0x2#4 ∧ 32 < c.len.toNat
  | .hexBadChar   => c.op = 0x2#4 ∧ c.len.toNat ≤ 32 ∧
      ∃ i < c.len.toNat, ishex (c.buf.extractLsb' (8 * i) 8) = false
  | .bytesTooLong => c.op = 0x3#4 ∧ 16 < c.len.toNat
  | .illegalOp    => c.op ∈ [0x0#4, 0xD#4, 0xE#4, 0xF#4]

/-- The opcodes that never fail, and the three kinds that can. -/
theorem opcode_failure_rows (op : OpBits) :
    op ∉ [0x0#4, 0x2#4, 0x3#4, 0xD#4, 0xE#4, 0xF#4] ∨ op = 0x2#4 ∨ op = 0x3#4 ∨
    op ∈ [0x0#4, 0xD#4, 0xE#4, 0xF#4] := by
  revert op; decide

theorem Status.code_injective {st st' : Status} (h : st.code = st'.code) : st = st' := by
  revert h
  cases st <;> cases st' <;> decide

theorem Status.code_le_four (st : Status) : st.code.toNat ≤ 4 := by
  cases st <;> decide

section
variable {c : Command} {st : Status}

theorem execResponse_of_raises (h : Raises c st) : execResponse c = .fail st := by
  cases st with
  | ok => exact h.elim
  | hexTooLong =>
    obtain ⟨hop, hlen⟩ := h
    exact (execResponse_of_fromHex hop).trans (respFromHex_of_too_long hlen)
  | hexBadChar =>
    obtain ⟨hop, hlen, hbad⟩ := h
    exact (execResponse_of_fromHex hop).trans (respFromHex_of_bad_char hlen ((exists_bad_char_iff hlen).mpr hbad))
  | bytesTooLong =>
    obtain ⟨hop, hlen⟩ := h
    exact (execResponse_of_fromBytes hop).trans (respFromBytes_of_too_long hlen)
  | illegalOp => exact execResponse_of_reserved h

/-- A command without a cause of failure reports status 0. -/
theorem status_eq_zero_or_raises (c : Command) : (execResponse c).status = 0#3 ∨ ∃ st, Raises c st := by
  rcases opcode_failure_rows c.op with hop | hop | hop | hop
  · exact .inl ((execResponse_produces c).status_eq_zero hop)
  · rcases Nat.lt_or_ge 32 c.len.toNat with hlt | hle
    · exact .inr ⟨.hexTooLong, hop, hlt⟩
    · by_cases hbad : ∃ ch ∈ lanes c.buf (lanesRead Config.hexMaxChars c.len), ishex ch = false
      · exact .inr ⟨.hexBadChar, hop, hle, (exists_bad_char_iff hle).mp hbad⟩
      · have hhex : ∀ ch ∈ lanes c.buf (lanesRead Config.hexMaxChars c.len), ishex ch = true := by simpa using hbad
        rw [execResponse_of_fromHex hop, respFromHex_of_hex hle hhex]
        exact .inl rfl
  · rcases Nat.lt_or_ge 16 c.len.toNat with hlt | hle
    · exact .inr ⟨.bytesTooLong, hop, hlt⟩
    · rw [execResponse_of_fromBytes hop, respFromBytes_of_le hle]
      exact .inl rfl
  · exact .inr ⟨.illegalOp, hop⟩

/-- Each failure code is reported exactly for its cause: two causes of one command have one code, so they are
the same. -/
theorem status_eq_code_iff (hst : st ≠ .ok) : (execResponse c).status = st.code ↔ Raises c st := by
  refine ⟨fun h => ?_, fun h => congrArg Response.status (execResponse_of_raises h)⟩
  rcases status_eq_zero_or_raises c with hzero | ⟨st', hst'⟩
  · exact absurd (Status.code_injective (h.symm.trans hzero : st.code = Status.ok.code)) hst
  · have hcode : st'.code = st.code := (congrArg Response.status (execResponse_of_raises hst')).symm.trans h
    exact Status.code_injective hcode ▸ hst'

end

theorem Produces.status_le_four {op : OpBits} {r : Response} (h : Produces op r) : r.status.toNat ≤ 4 := by
  cases h with
  | fail st => exact Status.code_le_four st
  | value | order | output => exact Nat.zero_le 4

theorem isFormatError_iff (status : BitVec 3) : isFormatError status = true ↔ status ∈ [1#3, 2#3, 3#3] := by
  revert status; decide

theorem ne_zero_of_isFormatError {status : BitVec 3} (h : isFormatError status = true) : status ≠ 0#3 := by
  rintro rfl
  exact absurd h (by decide)

/-- Settles O18: each code is reported exactly for its cause, and a failure leaves the value 0. -/
theorem statusOfEveryCommand : Obligations.StatusOfEveryCommand := by
  intro c s
  have h := execResponse_produces c
  exact ⟨_, exec_decode c s, h.status_le_four, status_eq_code_iff (st := .hexTooLong) (by decide),
    status_eq_code_iff (st := .hexBadChar) (by decide), status_eq_code_iff (st := .bytesTooLong) (by decide),
    status_eq_code_iff (st := .illegalOp) (by decide), isFormatError_iff _,
    fun hfmt => (h.eq_zero_of_failed (ne_zero_of_isFormatError hfmt)).1⟩

/-- Settles O17: the response of a reserved instruction is the failure ILLEGAL_OP, and a command with a reserved
opcode has that response under its own opcode. -/
theorem reservedOpcodesAnswerIllegalOp : Obligations.ReservedOpcodesAnswerIllegalOp := by
  refine ⟨fun s => ?_, fun s => ?_, fun s => ?_, fun s => ?_, fun c s hop => ?_⟩
  · exact exec_eq_answered_of_fail .reserved0 s (st := .illegalOp) rfl
  · exact exec_eq_answered_of_fail .reservedD s (st := .illegalOp) rfl
  · exact exec_eq_answered_of_fail .reservedE s (st := .illegalOp) rfl
  · exact exec_eq_answered_of_fail .reservedF s (st := .illegalOp) rfl
  · rw [← decode_opcode c]
    exact exec_eq_answered_of_fail (decode c) s (execResponse_of_reserved hop)

end Sys2Proof.Proofs

/-! # Every step (10_state.md R30; 60_exceptions.md R155) -/

namespace Sys2Proof.Proofs

open Sys2Proof.Machine Sys2Proof.Statements

/-! ## The invariant of the response registers, kept by every step -/

/-- Settles O9: every register is 0, so no failure and no lane past the length breaks the invariant, and the other
clauses are about small codes. -/
theorem resetStateMeetsResponseInvariant : Obligations.ResetStateMeetsResponseInvariant :=
  ⟨by decide, fun _ _ _ => BitVec.extractLsb'_zero, fun hst => absurd rfl hst, by decide, by decide, by decide⟩

/-- Settles O10: these are the values `State.reset` is defined with. -/
theorem resetStateIsAllZero : Obligations.ResetStateIsAllZero := rfl

/-- A reset edge leaves the registers as after reset, and the invariant does not read the inputs. -/
theorem resetRegs_inv (s : State) : s.resetRegs.Inv := resetStateMeetsResponseInvariant

/-- An idle edge clears RSP_VALID alone, which the invariant reads only where it asks for it to be 0. -/
theorem clearValid_inv {s : State} (h : s.Inv) : s.clearValid.Inv := by
  obtain ⟨hcodes, hlanes, hfail, hzero, ⟨hhex, hbytes, hillegal, hreserved⟩, hserial⟩ := h
  refine ⟨hcodes, hlanes, hfail, hzero, ⟨hhex, hbytes, hillegal, fun hop => ?_⟩, hserial⟩
  rcases hreserved hop with hst | ⟨hop0, hst, _⟩
  · exact .inl hst
  · exact .inr ⟨hop0, hst, rfl⟩

theorem isReservedOp_iff (op : OpBits) : isReservedOp op = true ↔ op ∈ [0x0#4, 0xD#4, 0xE#4, 0xF#4] := by
  revert op; decide

section
variable {op : OpBits} {r : Response} (s : State)

theorem Produces.len_le (h : Produces op r) : r.len.toNat ≤ 34 := by
  cases h with
  | output l _ hlen => exact (output_len_toNat hlen).trans_le hlen
  | value | order | fail => exact Nat.zero_le 34

theorem Produces.accept_codesProduced (h : Produces op r) : (s.accept op r).CodesProduced :=
  ⟨h.status_le_four, h.ord_ne_unused, h.len_le⟩

theorem Produces.accept_unproducedZero (h : Produces op r) : (s.accept op r).UnproducedZero :=
  ⟨not_imp_comm.mp h.ord_eq_zero, not_imp_comm.mp h.val_eq_zero,
    not_imp_comm.mp fun hop => (h.len_buf_eq_zero hop).1⟩

end

/-- Each failure code has its cause, which names the opcode (60_exceptions.md R150, R153). -/
theorem accept_statusRaised (c : Command) (s : State) : (s.accept c.op (execResponse c)).StatusRaised := by
  refine ⟨?_, fun h => ?_, fun h => ?_, fun h => .inl ?_⟩
  · rintro (h | h)
    · exact ((status_eq_code_iff (st := .hexTooLong) (by decide)).mp h).1
    · exact ((status_eq_code_iff (st := .hexBadChar) (by decide)).mp h).1
  · exact ((status_eq_code_iff (st := .bytesTooLong) (by decide)).mp h).1
  · exact (isReservedOp_iff c.op).mpr ((status_eq_code_iff (st := .illegalOp) (by decide)).mp h)
  · exact (status_eq_code_iff (st := .illegalOp) (by decide)).mpr ((isReservedOp_iff c.op).mp h)

/-- The length register after each serializer (44_serialize.md R133, R135, R136). -/
theorem execResponse_serialLength (c : Command) :
    (c.op = 0xA#4 → (execResponse c).len = 16#6) ∧
    (c.op = 0xB#4 → 1 ≤ (execResponse c).len.toNat ∧ (execResponse c).len.toNat ≤ 32) ∧
    (c.op = 0xC#4 → (execResponse c).len = 34#6) := by
  refine ⟨fun h => ?_, fun h => ?_, fun h => ?_⟩
  · rw [execResponse, decode_toBytes h]
    exact congrArg (BitVec.ofNat 6) (bigEndianBytes_length c.a)
  · have hlen := compactString_length c.a
    rw [execResponse, decode_toHexCompact h, responseOf, respToHexCompact, output_len_toNat (by omega)]
    exact hlen
  · rw [execResponse, decode_toHexCanon h]
    exact congrArg (BitVec.ofNat 6) (canonString_length c.a)

/-- An accepting edge writes the response of the command, which meets the invariant whatever stood before. -/
theorem accept_inv (c : Command) (s : State) : (s.accept c.op (execResponse c)).Inv := by
  have h := execResponse_produces c
  exact ⟨h.accept_codesProduced s, fun i hi hlen => h.lane_eq_zero hi hlen, h.eq_zero_of_failed,
    h.accept_unproducedZero s, accept_statusRaised c s, execResponse_serialLength c⟩

/-- Settles O8: of the things a step can do, only the idle edge needs the invariant before it. -/
theorem stepKeepsResponseInvariant : Obligations.StepKeepsResponseInvariant := by
  intro s t hs hstep
  rcases step_cases hstep with ⟨_, rfl⟩ | ⟨p, rest, _, ⟨_, rfl⟩ | ⟨_, _, rfl⟩ | ⟨_, _, _, rfl⟩ | ⟨_, _, _, rfl⟩⟩
  · exact hs
  · exact hs
  · exact resetRegs_inv _
  · exact clearValid_inv (s := { s with inputs := rest }) hs
  · exact accept_inv p.cmd _

/-! ## A step always answers, and takes one sample -/

/-- Settles O5: the step's lemma for an empty list of inputs. -/
theorem stoppedClockKeepsTheState : Obligations.StoppedClockKeepsTheState := fun _ => step_no_input

/-- Every step answers a next state: each action at a sample does, and `Exec` is total (10_state.md R29). -/
theorem exists_step_eq_next (s : State) : ∃ t, step s = .next t := by
  unfold step
  rcases fetch s with ⟨_ | _ | c | _, t⟩
  case accept => exact ⟨_, exec_decode c t⟩
  all_goals exact ⟨_, rfl⟩

/-- A step takes the first sample, where one is left. -/
theorem step_inputs {s t : State} (h : step s = .next t) : t.inputs = s.inputs.tail := by
  rcases step_cases h with ⟨hi, rfl⟩ | ⟨p, rest, hi, ⟨_, rfl⟩ | ⟨_, _, rfl⟩ | ⟨_, _, _, rfl⟩ | ⟨_, _, _, rfl⟩⟩
  · rw [hi]; rfl
  all_goals rw [hi]; rfl

/-- Settles O6: a step answers, and whatever it answers has one sample less. -/
theorem everyStepAnswersAndKeepsLaterInputs : Obligations.EveryStepAnswersAndKeepsLaterInputs := by
  intro s
  obtain ⟨t, ht⟩ := exists_step_eq_next s
  exact ⟨t, ht, step_inputs ht⟩

/-! ## The step as `exec` of a command word -/

/-- Settles O2: an accepting edge runs what the command decodes to. -/
theorem acceptedCommandRunsItsInstruction : Obligations.AcceptedCommandRunsItsInstruction := by
  intro s p rest cw hi hr hs hv hcmd
  rw [step_accept hi hr hs hv, hcmd]
  rfl

/-- A command word's fields are read from its number. -/
theorem decodeWord_ofNat (w : Nat) : decodeWord (BitVec.ofNat 524 w) = decode (commandOfNat w) := by
  rw [decodeWord, commandOfNat_eq_unpack]

/-- Settles O3: the placed sample is an accepting edge, and its command is that of the command word. -/
theorem fetchWordRunsItsInstruction : Obligations.FetchWordRunsItsInstruction := by
  intro s nbits w
  rw [decodeWord_ofNat]
  exact step_accept (State.present_inputs _ s) rfl rfl rfl

end Sys2Proof.Proofs

/-! # The encoder, the opcode table and the words of the programs (30_encoding.md) -/

namespace Sys2Proof.Proofs

open Sys2Proof.Machine

/-! ## Well-formed instructions (10_state.md R25) -/

/-- Only the two constructors that carry a sequence can be ill formed. -/
theorem wellFormed_of_opcode_ne {i : Instr} (hhex : i.opcode ≠ 0x2#4) (hbytes : i.opcode ≠ 0x3#4) : i.WellFormed := by
  cases i with
  | fromHex => exact absurd rfl hhex
  | fromBytes => exact absurd rfl hbytes
  | _ => rfl

theorem decode_wellFormed (c : Command) : (decode c).WellFormed := by
  by_cases hhex : c.op = 0x2#4
  · rw [decode_fromHex c hhex]
    exact beq_iff_eq.mpr (lanes_length ..)
  by_cases hbytes : c.op = 0x3#4
  · rw [decode_fromBytes c hbytes]
    exact beq_iff_eq.mpr (lanes_length ..)
  · exact wellFormed_of_opcode_ne (decode_opcode c ▸ hhex) (decode_opcode c ▸ hbytes)

/-- Settles O12: the decoder takes exactly the lanes read, and every other row is well formed. -/
theorem decodedInstructionsAreWellFormed : Obligations.DecodedInstructionsAreWellFormed := fun cw =>
  decode_wellFormed (unpack cw)

theorem fromHex_wellFormed_iff {len : Byte} {chars : List Byte} :
    (Instr.fromHex len chars).WellFormed ↔ chars.length = lanesRead Config.hexMaxChars len := beq_iff_eq

theorem fromBytes_wellFormed_iff {len : Byte} {bytes : List Byte} :
    (Instr.fromBytes len bytes).WellFormed ↔ bytes.length = lanesRead Config.bytesMax len := beq_iff_eq

/-! ## Decoding undoes encoding -/

/-- Reading as many lanes of a sequence's buffer as the length field says gives the sequence, where it has them. -/
theorem lanes_lanesRead_laneBuf {limit : Nat} {len : Byte} {l : List Byte} (hlimit : limit ≤ 32)
    (hl : l.length = lanesRead limit len) : lanes (laneBuf 256 l) (lanesRead limit len) = l := by
  have hle : lanesRead limit len ≤ limit := lanesRead_le limit len
  rw [← hl]
  exact lanes_laneBuf 256 l (by omega)

/-- The command that presents a well-formed instruction decodes to it. -/
theorem decode_encodeCommand {i : Instr} (h : i.WellFormed) : decode (encodeCommand i) = i := by
  cases i with
  | fromHex len chars =>
    rw [decode_fromHex _ rfl]
    exact congrArg _ (lanes_lanesRead_laneBuf (by decide) (fromHex_wellFormed_iff.mp h))
  | fromBytes len bytes =>
    rw [decode_fromBytes _ rfl]
    exact congrArg _ (lanes_lanesRead_laneBuf (by decide) (fromBytes_wellFormed_iff.mp h))
  | fromU64 u =>
    rw [decode_fromU64 rfl]
    exact congrArg _ (low_pair 0#64 u)
  | _ => rfl

/-- Settles O11: unpacking undoes packing, and the decoder undoes the encoder on the fields. -/
theorem decodeOfEncodeIsTheInstruction : Obligations.DecodeOfEncodeIsTheInstruction := by
  intro i h
  rw [decodeWord, encode, unpack_pack]
  exact decode_encodeCommand h

/-! ## The bytes of a table word (log entry 4) -/

/-- A number of `nbits` bits fits in as many bytes as `decodeTableWord` lays it out in. -/
theorem natOfBytes_tableWord (nbits w : Nat) :
    natOfBytes (bytesOfNat ((nbits + 7) / 8) (w % 2 ^ nbits)) = w % 2 ^ nbits := by
  have hpow : 2 ^ nbits ≤ 256 ^ ((nbits + 7) / 8) := by
    rw [show 256 = 2 ^ 8 from rfl, ← pow_mul]
    exact Nat.pow_le_pow_right (by decide) (by omega)
  rw [natOfBytes_bytesOfNat]
  exact Nat.mod_eq_of_lt ((Nat.mod_lt w (by positivity)).trans_le hpow)

/-- The decoder on bytes whose number has no bit above `CW[523]`. -/
theorem decodeBytes_of_lt {bs : List Byte} (h : natOfBytes bs < 2 ^ 524) :
    decodeBytes bs = .ok (decode (commandOfNat (natOfBytes bs))) :=
  if_pos (Nat.shiftRight_eq_zero _ _ h)

/-- Settles O4: the bytes stand for the word's number, which has at most 524 bits. -/
theorem tableWordDecodesAsItsCommandWord : Obligations.TableWordDecodesAsItsCommandWord := by
  intro nbits w hn
  have hlt : w % 2 ^ nbits < 2 ^ 524 :=
    (Nat.mod_lt w (Nat.two_pow_pos nbits)).trans_le (Nat.pow_le_pow_right Nat.two_pos hn)
  rw [decodeTableWord, decodeBytes_of_lt (by rwa [natOfBytes_tableWord]), natOfBytes_tableWord,
    decodeWord_ofNat]

/-! ## The opcode table (30_encoding.md R62) -/

/-- Settles O15: sixteen rows against sixteen codes. -/
theorem opcodeRowsPartitionTheCodes : Obligations.OpcodeRowsPartitionTheCodes := by
  refine ⟨rfl, ?_⟩
  decide

/-! ## The words of the programs (95_test_vectors.md L3) -/

/-- Settles O16: the fields of each word are cut out of its number and decoded. -/
theorem specProgramWordsDecode : Obligations.SpecProgramWordsDecode := by
  refine ⟨?_, ?_, ?_⟩ <;>
  · rw [decodeWord_ofNat]
    decide

end Sys2Proof.Proofs

/-! # The values of the constructors as numbers (40_construct.md R84, R90) -/

namespace Sys2Proof.Proofs

open Sys2Proof.Machine

/-! ## The digits of a number read by a loop

`l.foldl (fun v c => v * m + g c) 0` is the loop of R83 and R89 over numbers: `m` is 16 or 256, `g c` the digit
of `c`. -/

section
variable (g : Byte → Nat) (m : Nat)

/-- What the loop starts from stands above the digits read. -/
theorem foldl_digits_eq_add (l : List Byte) (k : Nat) :
    l.foldl (fun v c => v * m + g c) k = k * m ^ l.length + l.foldl (fun v c => v * m + g c) 0 := by
  induction l generalizing k with
  | nil => simp
  | cons c cs ih =>
    rw [List.foldl_cons, List.foldl_cons, ih (k * m + g c), ih (0 * m + g c), List.length_cons, pow_succ]
    ring

/-- The loop's number is the positional sum of its digits. -/
theorem foldl_digits_eq_sum (l : List Byte) :
    l.foldl (fun v c => v * m + g c) 0 =
      ((List.range l.length).map fun i => g (l.getD i 0#8) * m ^ (l.length - 1 - i)).sum := by
  induction l with
  | nil => rfl
  | cons c cs ih =>
    rw [List.foldl_cons, foldl_digits_eq_add, ih, List.length_cons, List.range_succ_eq_map, List.map_cons,
      List.sum_cons, List.map_map, Nat.zero_mul, Nat.zero_add]
    refine congrArg _ (congrArg List.sum (List.map_congr_left fun i _ => ?_))
    rw [Function.comp_apply, List.getD_cons_succ, show cs.length + 1 - 1 - i.succ = cs.length - 1 - i by omega]

section
variable {g m}

theorem foldl_digits_lt (hg : ∀ c, g c < m) (l : List Byte) :
    l.foldl (fun v c => v * m + g c) 0 < m ^ l.length := by
  simpa using foldl_lt g m hg l 0 0 (by simp)

/-- The digit of weight `m ^ (l.length - 1 - i)` is that of element `i`: the elements after it stay below that
weight, and those before it are multiples of `m` times it. -/
theorem foldl_digits_digit (hg : ∀ c, g c < m) {l : List Byte} {i : Nat} (hi : i < l.length) :
    l.foldl (fun v c => v * m + g c) 0 / m ^ (l.length - 1 - i) % m = g (l.getD i 0#8) := by
  have hsplit : l = l.take i ++ l[i] :: l.drop (i + 1) := by simp
  have hlen : (l.drop (i + 1)).length = l.length - 1 - i := by rw [List.length_drop]; omega
  have hlow := foldl_digits_lt hg (l.drop (i + 1))
  have hm : 0 < m := (Nat.zero_le _).trans_lt (hg 0#8)
  rw [List.getD_eq_getElem l 0#8 hi]
  conv_lhs => rw [hsplit, List.foldl_append, List.foldl_cons, foldl_digits_eq_add, ← hsplit, ← hlen]
  rw [Nat.add_comm, Nat.add_mul_div_right _ _ (pow_pos hm _), Nat.div_eq_of_lt hlow, Nat.zero_add]
  exact Nat.mul_add_mod_of_lt (hg _)

end
end

/-! ## FROM_HEX (40_construct.md R84) -/

/-- The number of at most 32 hex digits fits in 128 bits. -/
theorem hexValue_toNat {l : List Byte} (h : l.length ≤ 32) :
    (hexValue l).toNat = l.foldl (fun v ch => v * 16 + (hexval ch).toNat) 0 := by
  have hlt : l.foldl (fun v ch => v * 16 + (hexval ch).toNat) 0 < 16 ^ l.length :=
    foldl_digits_lt (fun c => (hexval c).isLt) l
  have hpow : 16 ^ l.length ≤ 16 ^ 32 := Nat.pow_le_pow_right (by decide) h
  rw [hexValue_eq, BitVec.toNat_ofNat]
  exact Nat.mod_eq_of_lt (hlt.trans_le hpow)

/-- Settles O23: the characters are as many as the length says, and their loop is the positional sum. -/
theorem hexValueIsThePositionalSum : Obligations.HexValueIsThePositionalSum := by
  intro len chars s hwf hlen hhex
  have hlength : chars.length = len.toNat := (fromHex_wellFormed_iff.mp hwf).trans (lanesRead_of_le hlen)
  refine ⟨_, exec_eq_answered_of_value (.fromHex len chars) s (respFromHex_of_hex hlen hhex), rfl, ?_⟩
  rw [← hlength] at hlen ⊢
  exact (hexValue_toNat hlen).trans (foldl_digits_eq_sum (fun ch => (hexval ch).toNat) 16 chars)

/-! ## FROM_BYTES (40_construct.md R90) -/

/-- Zero bytes before a sequence add nothing to its value. -/
theorem bytesValue_replicate_append (n : Nat) (l : List Byte) :
    bytesValue (List.replicate n 0#8 ++ l) = bytesValue l := by
  induction n with
  | zero => rfl
  | succ n ih => exact ih

/-- The number of at most sixteen bytes fits in 128 bits. -/
theorem bytesValue_toNat {l : List Byte} (h : l.length ≤ 16) :
    (bytesValue l).toNat = l.foldl (fun v d => v * 256 + d.toNat) 0 := by
  have hlt : l.foldl (fun v d => v * 256 + d.toNat) 0 < 256 ^ l.length := foldl_digits_lt (fun d => d.isLt) l
  have hpow : 256 ^ l.length ≤ 256 ^ 16 := Nat.pow_le_pow_right (by decide) h
  rw [bytesValue_eq, BitVec.toNat_ofNat]
  exact Nat.mod_eq_of_lt (hlt.trans_le hpow)

/-- Byte `i` of the value of sixteen bytes, from the most significant, is element `i`. -/
theorem bytesValue_extractLsb' {l : List Byte} (h : l.length = 16) {i : Nat} (hi : i < 16) :
    (bytesValue l).extractLsb' (120 - 8 * i) 8 = l.getD i 0#8 := by
  have hdigit := foldl_digits_digit (g := BitVec.toNat) (m := 256) (fun d => d.isLt) (h.symm ▸ hi)
  apply BitVec.eq_of_toNat_eq
  rw [BitVec.extractLsb'_toNat, bytesValue_toNat h.le, Nat.shiftRight_eq_div_pow, ← hdigit, h,
    show 120 - 8 * i = 8 * (16 - 1 - i) by omega, pow_mul]
  rfl

/-- Settles O25: the bytes padded to sixteen have the same value, each element a byte of it. -/
theorem shortByteInputIsLeftPadded : Obligations.ShortByteInputIsLeftPadded := by
  intro len bytes s hwf hlen
  have hlength : bytes.length = len.toNat := (fromBytes_wellFormed_iff.mp hwf).trans (lanesRead_of_le hlen)
  have hpadded : (List.replicate (16 - len.toNat) 0#8 ++ bytes).length = 16 := by simp; omega
  refine ⟨_, exec_eq_answered_of_value (.fromBytes len bytes) s (respFromBytes_of_le hlen), fun i hi => ?_⟩
  rw [← bytesValue_replicate_append (16 - len.toNat)]
  exact bytesValue_extractLsb' hpadded hi

end Sys2Proof.Proofs

/-! # The operations on whole values (41_compare.md R102, R103; 42_bitwise.md R105; 43_arith.md R117 to R123) -/

namespace Sys2Proof.Proofs

open Sys2Proof.Machine Sys2Proof.Statements

/-! ## CMP -/

/-- Comparing high halves first is comparing the numbers: the low halves stay below one unit of the high halves. -/
theorem compareHalves_eq_compare (a b : U128) : compareHalves a b = compare a.toNat b.toNat := by
  have ha := toNat_halves a
  have hb := toNat_halves b
  have hla := (low a).isLt
  have hlb := (low b).isLt
  simp only [compareHalves, BitVec.lt_def]
  split_ifs
  case pos => exact (compare_lt_iff_lt.mpr (by omega)).symm
  case pos => exact (compare_gt_iff_gt.mpr (by omega)).symm
  case pos => exact (compare_lt_iff_lt.mpr (by omega)).symm
  case pos => exact (compare_gt_iff_gt.mpr (by omega)).symm
  case neg => exact (compare_eq_iff_eq.mpr (by omega)).symm

/-- The next state of CMP, the order that of the numbers. -/
theorem exec_cmp (a b : U128) (s : State) :
    exec (.cmp a b) s = .next (answered s 0x4 0 0 (ordCode (compare a.toNat b.toNat)) 0 0) :=
  compareHalves_eq_compare a b ▸ exec_eq_answered_of_order (.cmp a b) s rfl

theorem ordCode_eq_lt_iff (o : Ordering) : ordCode o = 0b11#2 ↔ o = .lt := by cases o <;> decide
theorem ordCode_eq_eq_iff (o : Ordering) : ordCode o = 0b00#2 ↔ o = .eq := by cases o <;> decide
theorem ordCode_eq_gt_iff (o : Ordering) : ordCode o = 0b01#2 ↔ o = .gt := by cases o <;> decide

/-- The codes are the numbers -1, 0 and 1, so the reversed order has the negated code (41_compare.md R100). -/
theorem ordCode_swap (o : Ordering) : ordCode o.swap = -ordCode o := by cases o <;> decide

/-- Settles O27: each code is one ordering of the numbers. -/
theorem cmpIsTheUnsignedOrder : Obligations.CmpIsTheUnsignedOrder := fun a b s =>
  ⟨_, exec_cmp a b s, (ordCode_eq_lt_iff _).trans compare_lt_iff_lt,
    (ordCode_eq_eq_iff _).trans (compare_eq_iff_eq.trans BitVec.toNat_inj),
    (ordCode_eq_gt_iff _).trans compare_gt_iff_gt⟩

/-- Settles O28: the order of the numbers is reversed by exchanging them, and is transitive. -/
theorem cmpIsAntisymmetricAndTransitive : Obligations.CmpIsAntisymmetricAndTransitive := by
  refine ⟨fun a b s s' => ⟨_, _, exec_cmp a b s, exec_cmp b a s', ?_⟩,
    fun a b c s₁ s₂ s₃ => ⟨_, _, _, exec_cmp a b s₁, exec_cmp b c s₂, exec_cmp a c s₃, fun hab hbc => ?_⟩⟩
  · rw [← Nat.compare_swap a.toNat b.toNat]
    exact ordCode_swap _
  · have hab : a.toNat < b.toNat := compare_lt_iff_lt.mp ((ordCode_eq_lt_iff _).mp hab)
    have hbc : b.toNat < c.toNat := compare_lt_iff_lt.mp ((ordCode_eq_lt_iff _).mp hbc)
    exact (ordCode_eq_lt_iff _).mpr (compare_lt_iff_lt.mpr (hab.trans hbc))

/-! ## AND, OR and XOR -/

section
variable (a b : U128)

/-- An operator that acts bit by bit on halves acts bit by bit on the value. -/
theorem halfwise_getLsbD {op : Half → Half → Half} {f : Bool → Bool → Bool}
    (hop : ∀ x y k, (op x y).getLsbD k = f (x.getLsbD k) (y.getLsbD k)) {i : Nat} (hi : i < 128) :
    (halfwise op a b).getLsbD i = f (a.getLsbD i) (b.getLsbD i) := by
  rw [halfwise, pair_getLsbD]
  split
  next hlow => rw [hop, low_getLsbD _ _ hlow, low_getLsbD _ _ hlow]
  next hhigh =>
    have hk : i - 64 < 64 := by omega
    rw [hop, high_getLsbD _ _ hk, high_getLsbD _ _ hk, Nat.add_sub_cancel' (by omega)]

theorem halfwise_and : halfwise (· &&& ·) a b = a &&& b := by
  apply BitVec.eq_of_getLsbD_eq
  intro i hi
  rw [halfwise_getLsbD a b (fun _ _ _ => BitVec.getLsbD_and) hi, BitVec.getLsbD_and]

theorem halfwise_or : halfwise (· ||| ·) a b = a ||| b := by
  apply BitVec.eq_of_getLsbD_eq
  intro i hi
  rw [halfwise_getLsbD a b (fun _ _ _ => BitVec.getLsbD_or) hi, BitVec.getLsbD_or]

theorem halfwise_xor : halfwise (· ^^^ ·) a b = a ^^^ b := by
  apply BitVec.eq_of_getLsbD_eq
  intro i hi
  rw [halfwise_getLsbD a b (fun _ _ _ => BitVec.getLsbD_xor) hi, BitVec.getLsbD_xor]

variable (s : State)

theorem exec_and : exec (.and a b) s = .next (answered s 0x5 0 (a &&& b) 0 0 0) :=
  halfwise_and a b ▸ exec_eq_answered_of_value (.and a b) s rfl

theorem exec_or : exec (.or a b) s = .next (answered s 0x6 0 (a ||| b) 0 0 0) :=
  halfwise_or a b ▸ exec_eq_answered_of_value (.or a b) s rfl

theorem exec_xor : exec (.xor a b) s = .next (answered s 0x7 0 (a ^^^ b) 0 0 0) :=
  halfwise_xor a b ▸ exec_eq_answered_of_value (.xor a b) s rfl

end

/-- Settles O30: the halves together are the operator on the whole values, whose bits the library gives. -/
theorem bitwiseOperationsActOnEachBit : Obligations.BitwiseOperationsActOnEachBit := fun a b s =>
  ⟨_, _, _, exec_and a b s, exec_or a b s, exec_xor a b s,
    fun _ _ => ⟨BitVec.getLsbD_and, BitVec.getLsbD_or, BitVec.getLsbD_xor⟩⟩

/-! ## ADD and SUB -/

section
variable (a b : U128)

/-- The carry is what the low sum lost to its width. -/
theorem carry_toNat : (carry a b).toNat = ((low a).toNat + (low b).toNat) / 2 ^ 64 := by
  have hla := (low a).isLt
  have hlb := (low b).isLt
  rw [carry]
  split
  all_goals
    rename_i h
    rw [BitVec.lt_def, BitVec.toNat_add] at h
    rw [BitVec.toNat_ofNat]
    omega

/-- The borrow is 1 exactly where the low difference is negative. -/
theorem borrow_toNat : (borrow a b).toNat = if (low a).toNat < (low b).toNat then 1 else 0 := by
  rw [borrow, apply_ite BitVec.toNat]
  rfl

theorem addHalves_eq_add : addHalves a b = a + b := by
  have ha := toNat_halves a
  have hb := toNat_halves b
  apply BitVec.eq_of_toNat_eq
  rw [addHalves, pair_toNat, BitVec.toNat_add, BitVec.toNat_add, BitVec.toNat_add, BitVec.toNat_add, carry_toNat]
  omega

theorem subHalves_eq_sub : subHalves a b = a - b := by
  have ha := toNat_halves a
  have hb := toNat_halves b
  have hborrow := borrow_toNat a b
  apply BitVec.eq_of_toNat_eq
  rw [subHalves, pair_toNat, BitVec.toNat_sub, BitVec.toNat_sub, BitVec.toNat_sub, BitVec.toNat_sub]
  split at hborrow
  all_goals omega

variable (s : State)

theorem exec_add : exec (.add a b) s = .next (answered s 0x8 0 (a + b) 0 0 0) :=
  addHalves_eq_add a b ▸ exec_eq_answered_of_value (.add a b) s rfl

theorem exec_sub : exec (.sub a b) s = .next (answered s 0x9 0 (a - b) 0 0 0) :=
  subHalves_eq_sub a b ▸ exec_eq_answered_of_value (.sub a b) s rfl

end

/-- Settles O32: adding the halves with the carry is adding the values. -/
theorem addIsTheSumModulo : Obligations.AddIsTheSumModulo := fun a b s =>
  ⟨_, exec_add a b s, BitVec.toNat_add a b⟩

/-- Settles O34: subtracting the halves with the borrow is subtracting the values. -/
theorem subIsTheDifferenceModulo : Obligations.SubIsTheDifferenceModulo := by
  refine fun a b s => ⟨_, exec_sub a b s, BitVec.toNat_sub_of_le, fun hlt => ?_⟩
  have hb := b.isLt
  exact (BitVec.toNat_sub_of_lt hlt).trans (by omega)

/-- Settles O35: the operations on whole values undo each other. -/
theorem addAndSubUndoEachOther : Obligations.AddAndSubUndoEachOther := fun a b s =>
  ⟨⟨_, _, exec_add a b s, exec_sub (a + b) b _, BitVec.add_sub_cancel a b⟩,
    ⟨_, _, exec_sub a b s, exec_add (a - b) b _, BitVec.sub_add_cancel a b⟩⟩

end Sys2Proof.Proofs

/-! # The hex strings of the whole value (44_serialize.md R135, R137) -/

namespace Sys2Proof.Proofs

open Sys2Proof.Machine Sys2Proof.Statements

/-! ## Hex digits of a number -/

theorem hexmin_eq {w : Nat} (v : BitVec w) : hexmin v = hexDigitsOf v.toNat (hexminDigits v) := hexfix_eq ..

section
variable {w w' : Nat} {v : BitVec w} {v' : BitVec w'}

/-- The digit count depends on the number alone, not on the width. -/
theorem hexminDigits_congr (h : v.toNat = v'.toNat) : hexminDigits v = hexminDigits v' := by
  rw [hexminDigits_eq, hexminDigits_eq, h]

theorem hexmin_congr (h : v.toNat = v'.toNat) : hexmin v = hexmin v' := by
  rw [hexmin_eq, hexmin_eq, hexminDigits_congr h, h]

end

/-- The last `n` digits of a number are those of its remainder. -/
theorem hexDigitsOf_mod (v n : Nat) : hexDigitsOf (v % 16 ^ n) n = hexDigitsOf v n := by
  refine List.map_congr_left fun j hj => congrArg hexchar (BitVec.eq_of_getLsbD_eq fun k hk => ?_)
  have hbit : 4 * (n - 1 - j) + k < 4 * n := by
    have := List.mem_range.mp hj
    omega
  rw [BitVec.getLsbD_ofNat, BitVec.getLsbD_ofNat, Nat.testBit_shiftRight, Nat.testBit_shiftRight, sixteen_pow_eq,
    Nat.testBit_mod_two_pow, decide_eq_true hbit, Bool.true_and]

theorem hexDigitsOf_zero (n : Nat) : hexDigitsOf 0 n = List.replicate n 0x30#8 := by
  refine List.eq_replicate_iff.mpr ⟨hexDigitsOf_length 0 n, fun ch hch => ?_⟩
  obtain ⟨j, _, rfl⟩ := List.mem_map.mp hch
  rw [Nat.zero_shiftRight]
  decide

/-- More digits than a number needs are zeros before it. -/
theorem replicate_append_hexDigitsOf {v n : Nat} (m : Nat) (h : v < 16 ^ n) :
    List.replicate m 0x30#8 ++ hexDigitsOf v n = hexDigitsOf v (m + n) := by
  rw [hexDigitsOf_add, Nat.shiftRight_eq_zero v (4 * n) (sixteen_pow_eq n ▸ h), hexDigitsOf_zero]

/-- A number has at most as many digits as `hexmin` writes. -/
theorem lt_sixteen_pow_hexminDigits {w : Nat} (v : BitVec w) : v.toNat < 16 ^ hexminDigits v := by
  have hdigits := hexminDigits_eq v
  rw [sixteen_pow_eq]
  exact Nat.size_le.mp (by omega)

/-! ## The compact string -/

section
variable {a : U128}

theorem toNat_low_of_high_eq_zero (h : high a = 0#64) : (low a).toNat = a.toNat := by
  have hnat : (high a).toNat = 0 := congrArg BitVec.toNat h
  have ha := toNat_halves a
  omega

theorem high_toNat_pos (h : high a ≠ 0#64) : 0 < (high a).toNat :=
  Nat.pos_of_ne_zero fun hnat => h (BitVec.eq_of_toNat_eq hnat)

/-- The highest set bit of a value is that of its high half, where that is not 0. -/
theorem size_of_high_ne_zero (h : high a ≠ 0#64) : Nat.size a.toNat = Nat.size (high a).toNat + 64 := by
  have ha : a.toNat = (high a).toNat * 2 ^ 64 + (low a).toNat := toNat_halves a
  have hlow : (low a).toNat < 2 ^ 64 := (low a).isLt
  have hpos : 0 < Nat.size (high a).toNat := Nat.size_pos.mpr (high_toNat_pos h)
  have hhi : (high a).toNat < 2 ^ Nat.size (high a).toNat := Nat.lt_size_self _
  have hlo : 2 ^ (Nat.size (high a).toNat - 1) ≤ (high a).toNat := Nat.lt_size.mp (by omega)
  apply le_antisymm
  · rw [Nat.size_le, pow_add]
    omega
  · rw [show Nat.size (high a).toNat + 64 = (Nat.size (high a).toNat - 1 + 64) + 1 by omega, Nat.succ_le_iff,
      Nat.lt_size, pow_add]
    omega

theorem hexminDigits_of_high_ne_zero (h : high a ≠ 0#64) : hexminDigits a = hexminDigits (high a) + 16 := by
  have hsize := size_of_high_ne_zero h
  have hpos : 0 < Nat.size (high a).toNat := Nat.size_pos.mpr (high_toNat_pos h)
  rw [hexminDigits_eq, hexminDigits_eq]
  omega

/-- The high half's digits and the low half's sixteen are the value's. -/
theorem hexmin_of_high_ne_zero (h : high a ≠ 0#64) : hexmin a = hexmin (high a) ++ hexfix (low a) 16 := by
  have ha := toNat_halves a
  have hlow := (low a).isLt
  have hshift : a.toNat >>> (4 * 16) = (high a).toNat := by rw [Nat.shiftRight_eq_div_pow]; omega
  have hmod : a.toNat % 16 ^ 16 = (low a).toNat := by omega
  rw [hexmin_eq a, hexminDigits_of_high_ne_zero h, hexDigitsOf_add, hshift, ← hexDigitsOf_mod a.toNat 16, hmod,
    ← hexmin_eq, ← hexfix_eq]

variable (a)

/-- The compact string is the minimum-width hex of the whole value (44_serialize.md R135). -/
theorem compactString_eq_hexmin : compactString a = hexmin a := by
  by_cases h : high a = 0#64
  · rw [compactString_of_high_eq_zero h]
    exact hexmin_congr (toNat_low_of_high_eq_zero h)
  · rw [compactString_of_high_ne_zero h, hexmin_of_high_ne_zero h]

theorem exec_toHexCompact (s : State) :
    exec (.toHexCompact a) s =
      .next (answered s 0xB 0 0 0 (BitVec.ofNat 6 (hexminDigits a)) (laneBuf 272 (hexmin a))) :=
  exec_eq_answered_of_output_length (.toHexCompact a) s (congrArg Response.output (compactString_eq_hexmin a))
    (hexmin_length a)

/-- The digit count of a value fits in the length register. -/
theorem hexminDigits_toNat : (BitVec.ofNat 6 (hexminDigits a)).toNat = hexminDigits a := by
  have hdigits := hexminDigits_bounds a
  rw [BitVec.toNat_ofNat]
  omega

end

/-- Settles O40: the string is `hexmin` of the value, with the digits of the low half alone or with sixteen after
those of the high half. -/
theorem compactStringIsMinimumWidthHex : Obligations.CompactStringIsMinimumWidthHex := by
  intro a s
  have hbuf := bufHolds_laneBuf (hexmin a)
  refine ⟨_, exec_toHexCompact a s, fun h => ?_, fun h => ?_, ?_, hbuf⟩
  all_goals simp only [answered, hexminDigits_toNat]
  · rw [← hexminDigits_congr (toNat_low_of_high_eq_zero h)]
    exact hexminDigits_bounds (low a)
  · have hdigits := hexminDigits_bounds (high a)
    have hne : a.toNat ≠ 0 := by
      have ha := toNat_halves a
      have hpos := high_toNat_pos h
      omega
    rw [hexminDigits_of_high_ne_zero h]
    refine ⟨by omega, by omega, ?_⟩
    exact (hbuf 0 (by decide)).trans_ne (hexmin_getD_zero_ne a hne)
  · exact hexminDigits_eq a

/-! ## The canonical string -/

/-- The padding completes the digits of the value to 32 (44_serialize.md R137). -/
theorem canonString_eq_hexfix (a : U128) : canonString a = [0x30#8, 0x78#8] ++ hexfix a 32 := by
  have hdigits : hexminDigits a ≤ 32 := (hexminDigits_bounds a).2
  rw [canonString_eq_append, compactString_eq_hexmin, hexmin_length, hexmin_eq, List.append_assoc,
    replicate_append_hexDigitsOf _ (lt_sixteen_pow_hexminDigits a), Nat.sub_add_cancel hdigits, ← hexfix_eq]

theorem exec_toHexCanon (a : U128) (s : State) :
    exec (.toHexCanon a) s = .next (answered s 0xC 0 0 0 34 (laneBuf 272 ([0x30#8, 0x78#8] ++ hexfix a 32))) :=
  canonString_eq_hexfix a ▸ exec_eq_answered_of_output_length (.toHexCanon a) s rfl (canonString_length a)

/-- Settles O42: the buffer holds the canonical string. -/
theorem canonicalStringIsFixedWidthHex : Obligations.CanonicalStringIsFixedWidthHex := fun a s =>
  ⟨_, exec_toHexCanon a s, bufHolds_laneBuf _⟩

end Sys2Proof.Proofs

/-! # Round trips (40_construct.md R92, R93) -/

namespace Sys2Proof.Proofs

open Sys2Proof.Machine Sys2Proof.Statements

/-! ## A command that fails (60_exceptions.md R150) -/

/-- A command with a cause of failure answers its status and nothing else. -/
theorem exec_eq_answered_of_raises {c : Command} {st : Status} (s : State) (h : Raises c st) :
    exec (decode c) s = .next (answered s c.op st.code 0 0 0 0) := by
  rw [exec_decode, execResponse_of_raises h]
  rfl

/-! ## The lanes the host copies from the output buffer to the input buffer -/

/-- The sequence `l` after the elements of `p`, read back from the lanes that hold it. -/
theorem lanes_extractLsb'_laneBuf (p l : List Byte) (hl : l.length ≤ 32) (hpl : p.length + l.length ≤ 34) :
    lanes ((laneBuf 272 (p ++ l)).extractLsb' (8 * p.length) 256) l.length = l := by
  apply List.ext_getElem (lanes_length ..)
  intro i hi hi'
  have hlane : lane (laneBuf 272 (p ++ l)) (p.length + i) = l[i] := by
    rw [lane_laneBuf _ _ _ (by omega), List.getD_append_right _ _ _ _ (by omega), Nat.add_sub_cancel_left,
      List.getD_eq_getElem l 0#8 hi']
  have hfield := extractLsb'_of_field (x := laneBuf 272 (p ++ l)) (start := 8 * p.length) (w := 256) rfl
    (off := 8 * i) (len := 8) (by omega)
  simp only [lanes, List.getElem_map, List.getElem_range]
  rw [← hlane, lane, lane, ← hfield, Nat.mul_add]

/-! ## Bytes (40_construct.md R92) -/

/-- A value is determined by its sixteen bytes. -/
theorem eq_of_bytes_eq {v v' : U128}
    (h : ∀ i < 16, v.extractLsb' (120 - 8 * i) 8 = v'.extractLsb' (120 - 8 * i) 8) : v = v' := by
  apply BitVec.eq_of_getLsbD_eq
  intro k hk
  have hbit := congrArg (BitVec.getLsbD · (k % 8)) (h (15 - k / 8) (by omega))
  have hk8 : k % 8 < 8 := Nat.mod_lt k (by decide)
  have hpos : 120 - 8 * (15 - k / 8) + k % 8 = k := by omega
  simpa [hk8, hpos] using hbit

/-- The loop of FROM_BYTES reads back the big-endian bytes. -/
theorem bytesValue_bigEndianBytes (a : U128) : bytesValue (bigEndianBytes a) = a := by
  refine eq_of_bytes_eq fun i hi => ?_
  rw [bytesValue_extractLsb' (bigEndianBytes_length a) hi, bigEndianBytes_getD a hi]

/-- Settles O43: the lanes hold the bytes, and their loop gives the value back. -/
theorem byteRoundTripReturnsTheValue : Obligations.ByteRoundTripReturnsTheValue := by
  intro a b₁ b₂ s
  have hlanes : lanes ((laneBuf 272 (bigEndianBytes a)).extractLsb' 0 256) 16 = bigEndianBytes a :=
    lanes_extractLsb'_laneBuf [] (bigEndianBytes a) (by simp) (by simp)
  refine ⟨_, _, exec_eq_answered_of_output (.toBytes a) s rfl,
    exec_eq_answered_of_value (decode _) _ (v := bytesValue (bigEndianBytes a)) ?_, rfl, bytesValue_bigEndianBytes a⟩
  rw [decode_fromBytes _ rfl]
  exact congrArg (fun l => Response.value (bytesValue l)) hlanes

/-! ## Hex strings (40_construct.md R93) -/

theorem ishex_of_mem_hexfix {w n : Nat} {v : BitVec w} {ch : Byte} (h : ch ∈ hexfix v n) : ishex ch = true := by
  obtain ⟨j, _, rfl⟩ := List.mem_map.mp h
  exact (hexval_hexchar _).2

/-- The loop of FROM_HEX reads back the digits of a value that has no more of them. -/
theorem hexValue_hexfix {a : U128} {n : Nat} (h : a.toNat < 16 ^ n) : hexValue (hexfix a n) = a := by
  rw [hexValue_eq, hexfix_eq, foldl_hexDigitsOf, Nat.mod_eq_of_lt h, BitVec.ofNat_toNat, BitVec.setWidth_eq]

section
variable {a b v : U128} {len : Byte} {n : Nat} (s : State)

/-- FROM_HEX of the digits of a value that stand in the output buffer, after the elements of `p`. -/
theorem exec_fromHex_of_hexfix (p : List Byte) (hlen : len.toNat = n) (hn : n ≤ 32) (hp : p.length + n ≤ 34)
    (hv : v.toNat < 16 ^ n) :
    exec (decode ⟨0x2, a, b, len, (laneBuf 272 (p ++ hexfix v n)).extractLsb' (8 * p.length) 256⟩) s =
      .next (answered s 0x2 0 v 0 0 0) := by
  have hlanes := lanes_extractLsb'_laneBuf p (hexfix v n) (by simpa) (by simpa)
  have hle : len.toNat ≤ Config.hexMaxChars := hlen.trans_le hn
  have hresp : respFromHex len (hexfix v n) = .value v :=
    (respFromHex_of_hex hle fun _ => ishex_of_mem_hexfix).trans (congrArg _ (hexValue_hexfix hv))
  rw [hexfix_length] at hlanes
  rw [decode_fromHex _ rfl]
  dsimp only
  rw [lanesRead_of_le hle, hlen, hlanes]
  exact exec_eq_answered_of_value (.fromHex len _) s hresp

end

theorem hexminDigits_setWidth_toNat (a : U128) :
    ((BitVec.ofNat 6 (hexminDigits a)).setWidth 8).toNat = hexminDigits a := by
  have hdigits := hexminDigits_bounds a
  rw [BitVec.toNat_setWidth, hexminDigits_toNat]
  omega

/-- Settles O44: FROM_HEX reads the lanes of the string, which are the digits of the value; with `"0x"` before them
the string is too long. -/
theorem hexRoundTripReturnsTheValue : Obligations.HexRoundTripReturnsTheValue := by
  intro a s
  have hdigits : hexminDigits a ≤ 32 := (hexminDigits_bounds a).2
  have hcanon : 32 < ((34#6).setWidth 8).toNat := by decide
  constructor
  · exact ⟨_, _, exec_toHexCompact a s, exec_fromHex_of_hexfix _ [] (hexminDigits_setWidth_toNat a) hdigits
      (by simp; omega) (lt_sixteen_pow_hexminDigits a), rfl, rfl⟩
  · exact ⟨_, _, _, exec_toHexCanon a s, exec_eq_answered_of_raises _ (st := .hexTooLong) ⟨rfl, hcanon⟩, rfl, rfl,
      exec_fromHex_of_hexfix _ [0x30#8, 0x78#8] rfl le_rfl (by decide) a.isLt, rfl, rfl⟩

end Sys2Proof.Proofs

/-! # The assembly lines (30_encoding.md R64, R68, R69) -/

namespace Sys2Proof.Proofs

open Sys2Proof.Machine Sys2Proof.Statements

/-! ## The sequence lines -/

/-- The length field counts up to 255 and no further (30_encoding.md R64). -/
theorem lenField_toNat (n : Nat) : (lenField n).toNat = min n 255 := by
  rw [lenField, BitVec.toNat_ofNat]
  exact Nat.mod_eq_of_lt ((Nat.min_le_right n 255).trans_lt (by decide))

/-- A length past a limit below 255 is past it in the length field too. -/
theorem lt_lenField_toNat {limit n : Nat} (hlimit : limit < 255) (h : limit < n) : limit < (lenField n).toNat := by
  rw [lenField_toNat]
  exact lt_min h hlimit

theorem laneBuf_lane (l : List Byte) {i : Nat} (hi : i < 32) : (laneBuf 256 l).extractLsb' (8 * i) 8 = l.getD i 0#8 :=
  lane_laneBuf 256 l i (by omega)

section
variable (l : List Byte)

theorem assemble_fromHex_lane {i : Nat} (hi : i < 32) :
    (assemble (.fromHex l)).buf.extractLsb' (8 * i) 8 = l.getD i 0#8 := by
  refine (laneBuf_lane (l.take 32) hi).trans ?_
  rw [List.getD_eq_getElem?_getD, List.getElem?_take_of_lt hi, ← List.getD_eq_getElem?_getD]

theorem assemble_fromBytes_lane {i : Nat} (hi : i < 32) :
    (assemble (.fromBytes l)).buf.extractLsb' (8 * i) 8 = (l.take 16).getD i 0#8 :=
  laneBuf_lane (l.take 16) hi

variable {l} (s : State)

theorem exec_assemble_fromHex_too_long (h : 32 < l.length) :
    exec (decode (assemble (.fromHex l))) s = .next (answered s 0x2 1 0 0 0 0) :=
  exec_eq_answered_of_raises s (st := .hexTooLong) ⟨rfl, lt_lenField_toNat (by decide) h⟩

theorem exec_assemble_fromBytes_too_long (h : 16 < l.length) :
    exec (decode (assemble (.fromBytes l))) s = .next (answered s 0x3 3 0 0 0 0) :=
  exec_eq_answered_of_raises s (st := .bytesTooLong) ⟨rfl, lt_lenField_toNat (by decide) h⟩

end

/-! ## The other lines -/

theorem decode_assemble_fromU64 (u : Half) : decode (assemble (.fromU64 u)) = .fromU64 u :=
  congrArg Instr.fromU64 (low_pair 0#64 u)

/-- Settles O45: the fields of the sequence lines, the failures of those that are too long, and the other lines,
whose command carries the operands in the fields that the decoder takes them from. -/
theorem assembledLinesSetTheirFields : Obligations.AssembledLinesSetTheirFields := by
  refine ⟨fun l => ⟨rfl, lenField_toNat _, fun _ => assemble_fromHex_lane l, rfl, lenField_toNat _,
      fun _ => assemble_fromBytes_lane l⟩,
    fun l s => ⟨exec_assemble_fromHex_too_long s, exec_assemble_fromBytes_too_long s⟩,
    fun u a b c => ⟨decode_assemble_fromU64 u, ?_⟩⟩
  exact ⟨decode_cmp rfl, decode_and rfl, decode_or rfl, decode_xor rfl, decode_add rfl, decode_sub rfl,
    decode_toBytes rfl, decode_toHexCompact rfl, decode_toHexCanon rfl, rfl⟩

/-! ## The pseudo-commands (30_encoding.md R69) -/

section
variable (a : U128)

theorem xor_allOnes_literal : a ^^^ 0xffffffffffffffffffffffffffffffff#128 = ~~~ a := BitVec.xor_allOnes

theorem zero_sub_eq_ofNat : 0#128 - a = BitVec.ofNat 128 (2 ^ 128 - a.toNat) := by
  apply BitVec.eq_of_toNat_eq
  rw [BitVec.zero_sub, BitVec.toNat_neg, BitVec.toNat_ofNat]

theorem add_one_eq_ofNat : a + 1 = BitVec.ofNat 128 (a.toNat + 1) := by
  apply BitVec.eq_of_toNat_eq
  rw [BitVec.toNat_add, BitVec.toNat_ofNat]
  rfl

theorem sub_one_eq_ofNat : a - 1 = BitVec.ofNat 128 (a.toNat + (2 ^ 128 - 1)) := by
  apply BitVec.eq_of_toNat_eq
  rw [BitVec.toNat_sub, BitVec.toNat_ofNat, Nat.add_comm]
  rfl

end

/-- Settles O46: each expansion is the definition's, and its value that of the operation it expands to. -/
theorem pseudoCommandsComputeTheirResults : Obligations.PseudoCommandsComputeTheirResults := by
  intro a s
  refine ⟨⟨rfl, rfl, rfl, rfl, rfl, rfl⟩, ?_, ?_, ?_, ?_, ?_, ?_⟩
  · exact exec_eq_answered_of_value (.fromU64 0) s rfl
  · rw [decode_xor (c := assemble (.not a)) rfl, ← xor_allOnes_literal]
    exact exec_xor a _ s
  · rw [decode_sub (c := assemble (.neg a)) rfl, ← zero_sub_eq_ofNat]
    exact exec_sub 0 a s
  · rw [decode_add (c := assemble (.inc a)) rfl, ← add_one_eq_ofNat]
    exact exec_add a 1 s
  · rw [decode_sub (c := assemble (.dec a)) rfl, ← sub_one_eq_ofNat]
    exact exec_sub a 1 s
  · rw [decode_or (c := assemble (.mov a)) rfl]
    exact (exec_or a 0 s).trans (by simp)

end Sys2Proof.Proofs
